-- ==== Sys2Proof/Word.lean ====
section
/-! DEFINITION. The words of the block: bytes, and the 16-bit and 32-bit fields of the command port
(00_scope.md R11, 30_encoding.md R51). All are unsigned. -/

namespace Sys2Proof

/-- A byte, an unsigned integer 0..255 (R11). -/
abbrev Byte := BitVec 8

/-- A `u16`, an unsigned integer 0..65535 (R11). -/
abbrev U16 := BitVec 16

/-- A `u32` field of the command port (R51). -/
abbrev U32 := BitVec 32

end Sys2Proof
end

