-- ==== Sys2Proof/Config.lean ====
section
/-! DEFINITION. The configuration of one instance of the block (00_scope.md R9): the parameters that no
operation changes, and the free values of the OPEN ones. -/

namespace Sys2Proof

/-- A protocol variant, INSTR (0x00) or PLATE (0x01) (R14). -/
inductive Variant where
  /-- The Instrument protocol, encoded 0x00. -/
  | instr
  /-- The Plate protocol, encoded 0x01. -/
  | plate
deriving DecidableEq, Repr, Inhabited

/-- The two admitted values of INSTR_CK_START (R9, R61; 90_conflicts.md C1). -/
inductive CkStart where
  /-- Start offset 1, the default: the sum covers TOTAL_LENGTH. -/
  | one
  /-- Start offset 2, the alternative reading: the sum starts at ADDRESS. -/
  | two
deriving DecidableEq, Repr, Inhabited

/-- INSTR_CK_START as an offset (R9). -/
def CkStart.offset : CkStart → Nat
  | .one => 1
  | .two => 2

/-- The divisors an Instrument layout field may have: 1, 10 or 1000 (R108). -/
inductive Divisor where
  | one
  | ten
  | thousand
deriving DecidableEq, Repr, Inhabited

/-- The divisor as the `u16` a VALUE carries (R57, R108). -/
def Divisor.toU16 : Divisor → U16
  | .one => 1
  | .ten => 10
  | .thousand => 1000

/-- One numeric field of an Instrument payload: its offset in the payload and its divisor (R108). -/
structure LayoutField where
  /-- `off_j`, the offset of the field in the payload. -/
  off : Nat
  /-- `div_j`. -/
  div : Divisor
deriving DecidableEq, Repr, Inhabited

/-- The layout `(E, fields)` of a numeric control code (R108). -/
structure Layout where
  /-- `E`, the payload length in bytes. -/
  len : Nat
  /-- The numeric fields, in the order their values are returned (R109). -/
  fields : List LayoutField
deriving DecidableEq, Repr, Inhabited

/-- The configuration parameters of R9, as plain data. `instrLayout` is the function INSTR_LAYOUT as a list of
(code, layout) pairs: the first pair of a code counts, and a code without a pair has no layout. -/
structure Config where
  /-- INSTR_CK_START. -/
  instrCkStart : CkStart
  /-- PLATE_RX_TAIL. -/
  plateRxTail : Byte
  /-- MAX_FRAME. -/
  maxFrame : Nat
  /-- EARLY_REJECT. -/
  earlyReject : Bool
  /-- INSTR_LAYOUT. -/
  instrLayout : List (Byte × Layout)
  /-- PLATE_MEAS_CODES. -/
  plateMeasCodes : List Byte
  /-- PLATE_SYS_ADDR: given no special treatment in either direction (R117). -/
  plateSysAddr : Byte
  /-- LINK_VARIANT, the reset value of FRM_VARIANT (R23). -/
  linkVariant : Variant
deriving DecidableEq, Repr

/-- `INSTR_LAYOUT(pcc)` (R108). -/
def Config.layoutOf (cfg : Config) (pcc : Byte) : Option Layout :=
  cfg.instrLayout.lookup pcc

/-- R108's constraints on one layout: at least one field, each inside the payload. The bound of 255 fields is
DEDUCED from the `k:u8` count of a NUMERIC value (R57); log entry 10. -/
def Layout.admissible (l : Layout) : Bool :=
  !l.fields.isEmpty && l.fields.length ≤ 255 && l.fields.all fun f => decide (f.off + 2 ≤ l.len)

/-- The constraints on INSTR_LAYOUT: every layout admissible, and the layout of code 0x04 has E = 13, a field of
divisor 1 and a field of divisor 1000 (R108, R110). -/
def layoutsAdmissible (ls : List (Byte × Layout)) : Bool :=
  ls.all (fun p => p.2.admissible) &&
  match ls.lookup 0x04 with
  | some l => decide (l.len = 13) && l.fields.any (fun f => decide (f.div = .one))
      && l.fields.any (fun f => decide (f.div = .thousand))
  | none => false

/-- The constraints R9 puts on the parameters. -/
def Config.wf (cfg : Config) : Bool :=
  decide (6 ≤ cfg.maxFrame) && layoutsAdmissible cfg.instrLayout && decide (0x26 ∈ cfg.plateMeasCodes)

/-- Free value: PLATE_RX_TAIL of the hardware, OPEN (R9; 92_eei_decisions.md D6). Log entry 3. -/
opaque Config.anyPlateRxTail : Byte

/-- Free value: INSTR_LAYOUT of the hardware, OPEN (R9; D12), before R108's constraints are put on it. Log entry 3. -/
opaque Config.anyInstrLayout : List (Byte × Layout)

/-- Free value: the measurement codes beside 0x26, OPEN (R9; D15). Log entry 3. -/
opaque Config.anyPlateMeasCodes : List Byte

/-- Free value: PLATE_SYS_ADDR, OPEN (R9; D36). Log entry 3. -/
opaque Config.anyPlateSysAddr : Byte

/-- Free value: LINK_VARIANT, OPEN (R9; D19). Log entry 3. -/
opaque Config.anyLinkVariant : Variant

/-- INSTR_LAYOUT of the hardware: the free value, if it meets R108's constraints. Where it does not, one table that
does stands in, so that this is SOME admissible table and every admissible table can be it (log entry 3). -/
def Config.hwInstrLayout : List (Byte × Layout) :=
  if layoutsAdmissible Config.anyInstrLayout then Config.anyInstrLayout
  else [(0x04, ⟨13, [⟨0, .one⟩, ⟨2, .thousand⟩]⟩)]

/-- The configuration of the hardware: the values R9 gives (INSTR_CK_START 1, MAX_FRAME 261, EARLY_REJECT true;
log entry 2) and a free value for each OPEN parameter (log entry 3). -/
def Config.hw : Config where
  instrCkStart := .one
  plateRxTail := Config.anyPlateRxTail
  maxFrame := 261
  earlyReject := true
  instrLayout := Config.hwInstrLayout
  plateMeasCodes := 0x26 :: Config.anyPlateMeasCodes
  plateSysAddr := Config.anyPlateSysAddr
  linkVariant := Config.anyLinkVariant

end Sys2Proof
end

