-- ==== Sys2Proof/Syntax.lean ====
section
/-! DEFINITION. The twelve operations of the block, one constructor per row of the opcode map (30_encoding.md R54),
and the shape of their packets (R50, R51). -/

namespace Sys2Proof

/-- An operation with its operands, as a command packet carries them (R54). Variant operands are raw bytes here: a
reserved value is answered by the operation itself (R59(b), R164). -/
inductive Instr where
  /-- CK.SUM B, s, n. -/
  | ckSum (b : List Byte) (start n : U16)
  /-- CK.SUMEND B, s. -/
  | ckSumEnd (b : List Byte) (start : U16)
  /-- CK.SUMRNG B, s, e. -/
  | ckSumRng (b : List Byte) (start stop : U16)
  /-- CK.VERIFY v, F. -/
  | ckVerify (v : Byte) (f : List Byte)
  /-- ENC.I a, c, P. -/
  | encI (a c : Byte) (p : List Byte)
  /-- DEC.I pcc, F. -/
  | decI (pcc : Byte) (f : List Byte)
  /-- PADDR i. -/
  | pAddr (i : Byte)
  /-- ENC.P a, c, P. -/
  | encP (a c : Byte) (p : List Byte)
  /-- DEC.P F. -/
  | decP (f : List Byte)
  /-- FRM.RESET. -/
  | frmReset
  /-- FRM.CFG v. -/
  | frmCfg (v : Byte)
  /-- FRM.FEED C. -/
  | frmFeed (c : List Byte)
deriving DecidableEq, Repr

/-- The twelve defined opcodes (R54). -/
inductive Opcode where
  | ckSum | ckSumEnd | ckSumRng | ckVerify
  | encI | decI
  | pAddr | encP | decP
  | frmReset | frmCfg | frmFeed
deriving DecidableEq, Repr

/-- The kinds of operand field (R51). -/
inductive OperandKind where
  /-- One unsigned byte. -/
  | u8
  /-- Two bytes, unsigned, big-endian. -/
  | u16
  /-- A `u16` count, then that many bytes. -/
  | seq
deriving DecidableEq, Repr

/-- The opcode of an operation (R54). -/
def Instr.opcode : Instr → Opcode
  | .ckSum .. => .ckSum
  | .ckSumEnd .. => .ckSumEnd
  | .ckSumRng .. => .ckSumRng
  | .ckVerify .. => .ckVerify
  | .encI .. => .encI
  | .decI .. => .decI
  | .pAddr .. => .pAddr
  | .encP .. => .encP
  | .decP .. => .decP
  | .frmReset => .frmReset
  | .frmCfg .. => .frmCfg
  | .frmFeed .. => .frmFeed

end Sys2Proof
end

