-- ==== Sys2Proof/WellFormed.lean ====
section
/-! DEFINITION. Which operations a command packet can carry: every SEQ operand holds at most 65535 bytes (30_encoding.md
R52). Nothing else is asked: every byte value of an address, control code or variant operand can be issued, and a
reserved variant is an operation with a defined answer (R59(b)). -/

namespace Sys2Proof

/-- A SEQ holds 0 to 65535 bytes (R52). -/
def seqFits (b : List Byte) : Bool := decide (b.length ≤ 65535)

/-- The operation fits a command packet (R52). -/
def Instr.wellFormed : Instr → Bool
  | .ckSum b _ _ => seqFits b
  | .ckSumEnd b _ => seqFits b
  | .ckSumRng b _ _ => seqFits b
  | .ckVerify _ f => seqFits f
  | .encI _ _ p => seqFits p
  | .decI _ f => seqFits f
  | .pAddr _ => true
  | .encP _ _ p => seqFits p
  | .decP f => seqFits f
  | .frmReset => true
  | .frmCfg _ => true
  | .frmFeed c => seqFits c

end Sys2Proof
end

