-- ==== Sys2Proof/Decode.lean ====
section
/-! DEFINITION. The command port's packets (30_encoding.md part A): the opcode map, the decoder, total on any byte
sequence, and after it the encoder. -/

namespace Sys2Proof

/-! ### Fields (R51) -/

/-- A `u16` from its two bytes, high byte first (R51). -/
def u16OfBytes (hi lo : Byte) : U16 := hi ++ lo

/-- The two bytes of a `u16`, high byte first (R51). -/
def bytesOfU16 (v : U16) : List Byte := [v.extractLsb' 8 8, v.extractLsb' 0 8]

/-- The four bytes of a `u32`, high byte first (R51). -/
def bytesOfU32 (v : U32) : List Byte :=
  [v.extractLsb' 24 8, v.extractLsb' 16 8, v.extractLsb' 8 8, v.extractLsb' 0 8]

/-- A SEQ: its count as a `u16`, then its bytes in order (R51). -/
def bytesOfSeq (b : List Byte) : List Byte := bytesOfU16 (.ofNat 16 b.length) ++ b

/-! ### The opcode map (R54) -/

/-- The opcode byte (R54). -/
def Opcode.byte : Opcode → Byte
  | .ckSum => 0x10
  | .ckSumEnd => 0x11
  | .ckSumRng => 0x12
  | .ckVerify => 0x13
  | .encI => 0x20
  | .decI => 0x21
  | .pAddr => 0x30
  | .encP => 0x31
  | .decP => 0x32
  | .frmReset => 0x40
  | .frmCfg => 0x41
  | .frmFeed => 0x42

/-- All defined opcodes, in the order of the opcode map (R54). -/
def Opcode.all : List Opcode :=
  [.ckSum, .ckSumEnd, .ckSumRng, .ckVerify, .encI, .decI, .pAddr, .encP, .decP, .frmReset, .frmCfg, .frmFeed]

/-- The opcode of a byte; none for an undefined one (R54, R59(a)). -/
def Opcode.ofByte (b : Byte) : Option Opcode := Opcode.all.find? fun o => o.byte == b

/-- The operand fields that follow the opcode, in order (R54). -/
def Opcode.operands : Opcode → List OperandKind
  | .ckSum => [.seq, .u16, .u16]
  | .ckSumEnd => [.seq, .u16]
  | .ckSumRng => [.seq, .u16, .u16]
  | .ckVerify => [.u8, .seq]
  | .encI => [.u8, .u8, .seq]
  | .decI => [.u8, .seq]
  | .pAddr => [.u8]
  | .encP => [.u8, .u8, .seq]
  | .decP => [.seq]
  | .frmReset => []
  | .frmCfg => [.u8]
  | .frmFeed => [.seq]

/-- How many bytes the operand fields `ks` take in a packet whose bytes from there on are `bs` (R51, R53). A count
byte the packet does not have reads as zero; the fields then still need more bytes than there are. -/
def operandsLength : List OperandKind → List Byte → Nat
  | [], _ => 0
  | .u8 :: ks, bs => 1 + operandsLength ks (bs.drop 1)
  | .u16 :: ks, bs => 2 + operandsLength ks (bs.drop 2)
  | .seq :: ks, bs =>
    let n := (u16OfBytes (bs.getD 0 0) (bs.getD 1 0)).toNat
    2 + n + operandsLength ks (bs.drop (2 + n))

/-- The length the layout of opcode `o` gives a packet whose bytes after the opcode are `bs` (R53). -/
def Opcode.packetLength (o : Opcode) (bs : List Byte) : Nat := 1 + operandsLength o.operands bs

/-! ### Decoder -/

/-- Why a byte sequence is no operation. -/
inductive DecodeError where
  /-- No byte at all, so no opcode: no rule gives it a response (log entry 7). -/
  | noOpcode
  /-- An opcode outside the map, whatever follows it (R59(a), R164 first). -/
  | undefinedOpcode (opc : Byte)
  /-- A defined opcode in a packet of the wrong length (R53, R164 second). -/
  | malformed (o : Opcode)
deriving DecidableEq, Repr

/-- Read a `u8` operand. -/
def takeU8 : List Byte → Option (Byte × List Byte)
  | b :: rest => some (b, rest)
  | [] => none

/-- Read a `u16` operand, high byte first. -/
def takeU16 : List Byte → Option (U16 × List Byte)
  | hi :: lo :: rest => some (u16OfBytes hi lo, rest)
  | _ => none

/-- Read a SEQ operand; none if its count runs past the packet's end (R53). -/
def takeSeq (bs : List Byte) : Option (List Byte × List Byte) := do
  let (n, rest) ← takeU16 bs
  if n.toNat ≤ rest.length then some (rest.take n.toNat, rest.drop n.toNat) else none

/-- Nothing may be left over after the last operand (R53). -/
def takeEnd {α : Type} (a : α) : List Byte → Option α
  | [] => some a
  | _ :: _ => none

/-- The operation of opcode `o` with the operand bytes `bs`; none if the packet is malformed (R53, R54). -/
def decodeOperands (o : Opcode) (bs : List Byte) : Option Instr :=
  match o with
  | .ckSum => do
    let (b, bs) ← takeSeq bs
    let (s, bs) ← takeU16 bs
    let (n, bs) ← takeU16 bs
    takeEnd (.ckSum b s n) bs
  | .ckSumEnd => do
    let (b, bs) ← takeSeq bs
    let (s, bs) ← takeU16 bs
    takeEnd (.ckSumEnd b s) bs
  | .ckSumRng => do
    let (b, bs) ← takeSeq bs
    let (s, bs) ← takeU16 bs
    let (e, bs) ← takeU16 bs
    takeEnd (.ckSumRng b s e) bs
  | .ckVerify => do
    let (v, bs) ← takeU8 bs
    let (f, bs) ← takeSeq bs
    takeEnd (.ckVerify v f) bs
  | .encI => do
    let (a, bs) ← takeU8 bs
    let (c, bs) ← takeU8 bs
    let (p, bs) ← takeSeq bs
    takeEnd (.encI a c p) bs
  | .decI => do
    let (pcc, bs) ← takeU8 bs
    let (f, bs) ← takeSeq bs
    takeEnd (.decI pcc f) bs
  | .pAddr => do
    let (i, bs) ← takeU8 bs
    takeEnd (.pAddr i) bs
  | .encP => do
    let (a, bs) ← takeU8 bs
    let (c, bs) ← takeU8 bs
    let (p, bs) ← takeSeq bs
    takeEnd (.encP a c p) bs
  | .decP => do
    let (f, bs) ← takeSeq bs
    takeEnd (.decP f) bs
  | .frmReset => takeEnd .frmReset bs
  | .frmCfg => do
    let (v, bs) ← takeU8 bs
    takeEnd (.frmCfg v) bs
  | .frmFeed => do
    let (c, bs) ← takeSeq bs
    takeEnd (.frmFeed c) bs

/-- The operation a packet carries, or the first reason it carries none: the opcode is looked at before the packet's
length (R59, R164). -/
def decode : List Byte → Except DecodeError Instr
  | [] => .error .noOpcode
  | opc :: bs =>
    match Opcode.ofByte opc with
    | none => .error (.undefinedOpcode opc)
    | some o =>
      match decodeOperands o bs with
      | none => .error (.malformed o)
      | some i => .ok i

/-! ### Encoder -/

/-- The operand bytes of an operation, in the order of the opcode map (R54). -/
def encodeOperands : Instr → List Byte
  | .ckSum b s n => bytesOfSeq b ++ bytesOfU16 s ++ bytesOfU16 n
  | .ckSumEnd b s => bytesOfSeq b ++ bytesOfU16 s
  | .ckSumRng b s e => bytesOfSeq b ++ bytesOfU16 s ++ bytesOfU16 e
  | .ckVerify v f => v :: bytesOfSeq f
  | .encI a c p => a :: c :: bytesOfSeq p
  | .decI pcc f => pcc :: bytesOfSeq f
  | .pAddr i => [i]
  | .encP a c p => a :: c :: bytesOfSeq p
  | .decP f => bytesOfSeq f
  | .frmReset => []
  | .frmCfg v => [v]
  | .frmFeed c => bytesOfSeq c

/-- The command packet of an operation: its opcode byte, then its operand fields with no padding (R50). -/
def encode (i : Instr) : List Byte := i.opcode.byte :: encodeOperands i

/-! ### The packet of an opcode-table word -/

/-- The `k` low bytes of `w`, least significant first: byte 0 of a packet is bits 7..0 of a table word. -/
def wordBytes : Nat → Nat → List Byte
  | 0, _ => []
  | k + 1, w => BitVec.ofNat 8 (w % 256) :: wordBytes k (w / 256)

/-- The packet whose first bits are the `nbits` bits of `w` and whose further bytes, as many as the opcode's layout
still asks for, are zero (R53 admits exactly that length). -/
def packetOfWord (nbits w : Nat) : List Byte :=
  let bs := wordBytes ((nbits + 7) / 8) w
  match bs with
  | [] => []
  | opc :: rest =>
    match Opcode.ofByte opc with
    | none => bs
    | some o => bs ++ List.replicate (o.packetLength rest - bs.length) 0

/-- The operation the decoder reads from an opcode-table word; none where it refuses. -/
def decodeTableWord (nbits w : Nat) : Option Instr :=
  match decode (packetOfWord nbits w) with
  | .ok i => some i
  | .error _ => none

end Sys2Proof
end

