-- ==== Sys2Proof/Machine/Flags.lean ====
section
/-! DEFINITION. The conditions the block computes. It has no flags register and no condition codes (10_state.md R28): its one
arithmetic function is the additive checksum and its one predicate is the checksum verification (41_checksum.md). -/

namespace Sys2Proof.Machine

open Sys2Proof

/-- `Sum8(B, s, n)`: the sum of the `n` bytes from offset `s`, mod 256; 0 when `n = 0` (R85). -/
def sum8 (b : List Byte) (s n : Nat) : Byte :=
  BitVec.ofNat 8 ((((b.drop s).take n).map BitVec.toNat).sum)

/-- `CkGen(B, s)`, the generator call shape: from offset `s` to the end of the buffer (R89). -/
def ckGen (b : List Byte) (s : Nat) : Byte := sum8 b s (b.length - s)

/-- `CkStart(v)`: INSTR_CK_START for INSTR, 0 for PLATE (R91). -/
def ckStart (cfg : Config) : Variant → Nat
  | .instr => cfg.instrCkStart.offset
  | .plate => 0

/-- `CkOk(v, F)`: at least 6 bytes, and the sum over `[CkStart(v), |F| - 2)` equals the byte at offset `|F| - 2`; the
actual length counts, not the declared one (R91, R95). -/
def ckOk (cfg : Config) (v : Variant) (f : List Byte) : Bool :=
  decide (6 ≤ f.length) &&
  decide (f[f.length - 2]? = some (sum8 f (ckStart cfg v) (f.length - 2 - ckStart cfg v)))

end Sys2Proof.Machine
end

