-- ==== Sys2Proof/Machine/Operands.lean ====
section
/-! DEFINITION. Operand forms: variant operands, the 16-bit fields of a payload, the per-variant constants of the wire formats
(30_encoding.md R60 to R68, 44_framer.md R133), and the Byte Cursor the codec reads and builds frames with (40_cursor.md). -/

namespace Sys2Proof.Machine

open Sys2Proof

/-! ### Variant operands and wire constants -/

/-- The variant a `v:u8` operand names; none for a reserved value (R14, R59(b)). -/
def variantOfByte (v : Byte) : Option Variant :=
  if v = 0x00 then some .instr else if v = 0x01 then some .plate else none

/-- The Instrument head, `IHEAD` (R97). -/
def instrHead : Byte := 0x7B
/-- The Instrument tail, `ITAIL` (R97). -/
def instrTail : Byte := 0x7D
/-- The Plate outbound head, `POHEAD` (R115). -/
def plateOutHead : Byte := 0x4E
/-- The Plate outbound tail, `POTAIL` (R115). -/
def plateOutTail : Byte := 0x45
/-- The Plate inbound head, `PIHEAD` (R115). -/
def plateInHead : Byte := 0x4F
/-- The socket base, `SBASE` (R115). -/
def socketBase : Byte := 0x80
/-- The fixed byte count of both variants (R68). -/
def fixedBytes : Nat := 6
/-- The longest Instrument payload (R97). -/
def instrMaxPayload : Nat := 249
/-- The longest Plate parameter field (R115). -/
def plateMaxParam : Nat := 255

/-- `RxHead(v)` (R133). -/
def rxHead : Variant → Byte
  | .instr => instrHead
  | .plate => plateInHead

/-- `RxTail(v)` (R133). -/
def rxTail (cfg : Config) : Variant → Byte
  | .instr => instrTail
  | .plate => cfg.plateRxTail

/-- `HdrLen(v)`: how many bytes are needed before the length is known (R66, R133). -/
def hdrLen : Variant → Nat
  | .instr => 2
  | .plate => 4

/-- `DeclLen(v, B)`, asked only when `|B| ≥ HdrLen(v)` (R133). -/
def declLen : Variant → List Byte → Nat
  | .instr, b => (b.getD 1 0).toNat
  | .plate, b => (b.getD 3 0).toNat + fixedBytes

/-- `BE16(P, o)`, the big-endian unsigned value at offsets `o`, `o + 1`, both inside the sequence (R12, R38). -/
def be16 (p : List Byte) (o : Nat) : U16 := u16OfBytes (p.getD o 0) (p.getD (o + 1) 0)

/-! ### Byte Cursor -/

/-- The mode of a cursor (R27, R75). -/
inductive CursorMode where
  | assembly
  | parse
deriving DecidableEq, Repr

/-- A Byte Cursor: it exists only inside one codec operation (R27). -/
structure Cursor where
  /-- `CUR_BUF`. -/
  buf : List Byte
  /-- `CUR_RD`. -/
  rd : Nat
  /-- The mode. -/
  mode : CursorMode
deriving DecidableEq, Repr

/-- How a cursor primitive fails. -/
inductive CursorError where
  /-- `OutOfRangeError`: fewer bytes remain than asked for (R78, R79). -/
  | outOfRange
  /-- A primitive of the other mode (R81). -/
  | mixedMode
deriving DecidableEq, Repr

/-- `CurNewAssembly()` (R75). -/
def Cursor.newAssembly : Cursor := ⟨[], 0, .assembly⟩

/-- `CurNewParse(F)` (R75). -/
def Cursor.newParse (f : List Byte) : Cursor := ⟨f, 0, .parse⟩

/-- `CurPutN(B)` (R77). -/
def Cursor.putN (cur : Cursor) (b : List Byte) : Except CursorError Cursor :=
  match cur.mode with
  | .assembly => .ok { cur with buf := cur.buf ++ b }
  | .parse => .error .mixedMode

/-- `CurPut(b)` (R76). -/
def Cursor.put (cur : Cursor) (b : Byte) : Except CursorError Cursor := cur.putN [b]

/-- `CurGetN(n)`: the next `n` bytes; on OutOfRange nothing is read (R79). -/
def Cursor.getN (cur : Cursor) (n : Nat) : Except CursorError (List Byte × Cursor) :=
  match cur.mode with
  | .assembly => .error .mixedMode
  | .parse =>
    if cur.rd + n > cur.buf.length then .error .outOfRange
    else .ok ((cur.buf.drop cur.rd).take n, { cur with rd := cur.rd + n })

/-- `CurGet()`: the next byte (R78). -/
def Cursor.get (cur : Cursor) : Except CursorError (Byte × Cursor) :=
  match cur.mode with
  | .assembly => .error .mixedMode
  | .parse =>
    match cur.buf[cur.rd]? with
    | none => .error .outOfRange
    | some b => .ok (b, { cur with rd := cur.rd + 1 })

/-- `CurBytes()`: the whole buffer in either mode (R80). -/
def Cursor.bytes (cur : Cursor) : List Byte := cur.buf

end Sys2Proof.Machine
end

