-- ==== Sys2Proof/Machine/Response.lean ====
section
/-! DEFINITION. What an operation answers (30_encoding.md R55 to R58): status codes, results, VALUE and EVENTS, and their bytes
in a response packet. -/

namespace Sys2Proof.Machine

open Sys2Proof

/-- The non-OK statuses (R56). -/
inductive ErrorStatus where
  /-- FRAME_ERROR, from DEC.I and DEC.P (R156). -/
  | frameError
  /-- CHECKSUM_ERROR, from DEC.I and DEC.P (R157). -/
  | checksumError
  /-- UNKNOWN, from DEC.P (R158). -/
  | unknown
  /-- TIMEOUT, reserved for the Correlator: no operation returns it (R163). -/
  | timeout
  /-- OUT_OF_RANGE, from CK.SUM, CK.SUMEND, CK.SUMRNG and PADDR (R159). -/
  | outOfRange
  /-- ENC_LENGTH, from ENC.I and ENC.P (R160). -/
  | encLength
  /-- ILLEGAL_OP, for an undefined opcode or a reserved variant (R161). -/
  | illegalOp
  /-- BAD_PACKET, for a malformed packet (R162). -/
  | badPacket
deriving DecidableEq, Repr

/-- The status codes (R56). -/
def ErrorStatus.code : ErrorStatus → Byte
  | .frameError => 0x01
  | .checksumError => 0x02
  | .unknown => 0x03
  | .timeout => 0x04
  | .outOfRange => 0x05
  | .encLength => 0x06
  | .illegalOp => 0x07
  | .badPacket => 0x08

/-- The status code OK (R56). -/
def okCode : Byte := 0x00

/-- One field of a NUMERIC value: the raw 16-bit value and its divisor (R57). -/
structure NumericField where
  /-- The raw value, unsigned (92_eei_decisions.md D13). -/
  raw : U16
  /-- The divisor. -/
  div : U16
deriving DecidableEq, Repr

/-- The physical value of a field, the exact rational raw / div (R57, R71, R109; D14). The block delivers the pair; the quotient
is the host's reading of it. -/
def NumericField.physical (f : NumericField) : Rat := (f.raw.toNat : Rat) / (f.div.toNat : Rat)

/-- `VALUE`, the decoded payload (R57). -/
inductive Value where
  /-- NONE: acknowledged only. -/
  | none
  /-- NUMERIC: the fields in layout order. -/
  | numeric (fields : List NumericField)
  /-- TEXT: the payload bytes unchanged. -/
  | text (t : List Byte)
deriving DecidableEq, Repr

/-- The reasons of a FRAME_ERR event (R58). -/
inductive FrameErrReason where
  /-- An Instrument declared length below 6. -/
  | badLength
  /-- The tail byte wrong at the expected offset. -/
  | badTail
  /-- Declared length above MAX_FRAME, or, with EARLY_REJECT false, the buffer grown past it. -/
  | oversize
deriving DecidableEq, Repr

/-- The reason byte (R58). -/
def FrameErrReason.code : FrameErrReason → Byte
  | .badLength => 0x00
  | .badTail => 0x01
  | .oversize => 0x02

/-- One event of FRM.FEED (R58, R140). -/
inductive Event where
  /-- FRAME: a complete, checksum-valid frame. -/
  | frame (f : List Byte)
  /-- FRAME_ERR: a rejected candidate. -/
  | frameErr (r : FrameErrReason)
  /-- CK_ERR: a complete frame whose checksum is wrong. -/
  | ckErr (f : List Byte)
deriving DecidableEq, Repr

/-- The result fields of an operation that ends with status OK (R54). -/
inductive Result where
  /-- No results: FRM.RESET, FRM.CFG. -/
  | nothing
  /-- `ck:u8`: CK.SUM, CK.SUMEND, CK.SUMRNG. -/
  | checksum (ck : Byte)
  /-- `ok:u8`, 0x00 false or 0x01 true: CK.VERIFY. -/
  | verdict (ok : Bool)
  /-- `F:SEQ`: ENC.I, ENC.P. -/
  | frame (f : List Byte)
  /-- `a:u8, c:u8, P:SEQ, val:VALUE`: DEC.I, DEC.P. -/
  | decoded (a c : Byte) (p : List Byte) (val : Value)
  /-- `a:u8`: PADDR. -/
  | address (a : Byte)
  /-- `ev:EVENTS`: FRM.FEED. -/
  | events (ev : List Event)
deriving DecidableEq, Repr

/-- A response: OK with its results, or a non-OK status alone (R55). -/
inductive Response where
  | ok (r : Result)
  | raised (e : ErrorStatus)
deriving DecidableEq, Repr

/-- The bytes of a numeric field: raw, then div (R57). -/
def encodeNumericField (f : NumericField) : List Byte := bytesOfU16 f.raw ++ bytesOfU16 f.div

/-- The bytes of a VALUE: its tag, then its body (R57). -/
def encodeValue : Value → List Byte
  | .none => [0x00]
  | .numeric fs => 0x01 :: BitVec.ofNat 8 fs.length :: fs.flatMap encodeNumericField
  | .text t => 0x02 :: bytesOfSeq t

/-- The bytes of an event: its tag, then its body (R58). -/
def encodeEvent : Event → List Byte
  | .frame f => 0x00 :: bytesOfSeq f
  | .frameErr r => [0x01, r.code]
  | .ckErr f => 0x02 :: bytesOfSeq f

/-- The bytes of EVENTS: the count as a `u32`, then the events in the order found (R58). -/
def encodeEvents (ev : List Event) : List Byte :=
  bytesOfU32 (.ofNat 32 ev.length) ++ ev.flatMap encodeEvent

/-- The bytes of the result fields, in the order of R54. -/
def encodeResult : Result → List Byte
  | .nothing => []
  | .checksum ck => [ck]
  | .verdict ok => [if ok then 0x01 else 0x00]
  | .frame f => bytesOfSeq f
  | .decoded a c p val => a :: c :: (bytesOfSeq p ++ encodeValue val)
  | .address a => [a]
  | .events ev => encodeEvents ev

/-- The response packet: the status, then the results when it is OK; a non-OK status stands alone (R55). -/
def encodeResponse : Response → List Byte
  | .ok r => okCode :: encodeResult r
  | .raised e => [e.code]

end Sys2Proof.Machine
end

