-- ==== Sys2Proof/Machine/State.lean ====
section
/-! DEFINITION. The state of the block (10_state.md): the two elements the spec gives it, the read-only configuration of the
instance, and the model's own fields for what crosses the block's boundary. -/

namespace Sys2Proof.Machine

open Sys2Proof

/-- One input from outside, taken between operations (R42): a command packet (R50) or a change of the reset input
(R173). Log entries 4 and 6. -/
inductive PortInput where
  /-- A command packet, a finite byte sequence (R53; 93_implementation_defined.md U7). -/
  | packet (bytes : List Byte)
  /-- The reset input is asserted: the reset action of R173 happens, and lasts until it is released. -/
  | resetAssert
  /-- The reset input is released. -/
  | resetRelease
deriving DecidableEq, Repr

/-- The state. `frmVariant` and `frmBuf` are the spec's two elements (R20). `cfg` is the configuration (R9), which no
operation writes (R29). `inReset`, `pending` and `responses` are the model's own (log entries 4, 5, 6). -/
structure State where
  /-- FRM_VARIANT (R23). -/
  frmVariant : Variant
  /-- FRM_BUF (R24), offset 0 first. -/
  frmBuf : List Byte
  /-- The configuration parameters (R9): read-only, hardwired fields of the instance (R29). -/
  cfg : Config
  /-- Whether the reset input is held (R175). -/
  inReset : Bool
  /-- Inputs that have arrived and are not taken yet, in arrival order (R50). -/
  pending : List PortInput
  /-- Response packets sent, oldest first (R50, R55). -/
  responses : List (List Byte)
deriving DecidableEq, Repr

/-- Faults. The block has no traps and no exceptions (R153): every error it detects is a status or an event. -/
inductive Fault where
  /-- Raised by the fetch when the next packet holds no byte: it has no opcode, and no rule gives it a response (R50,
  R53, R59 all speak of packets with an opcode). Safe: the model stops where the spec says nothing. Log entry 7. -/
  | emptyPacket
deriving DecidableEq, Repr

/-- Refusals: what the spec says a model has no meaning for. -/
inductive Refusal where
  /-- Raised by an arm of `exec` whose instruction has no meaning yet; no arm does. Safe: the model stops. -/
  | notModelled (mnemonic : String)
  /-- Raised by the fetch when a packet comes while the reset input is held: 'a model refuses it' (R175; U5). Safe: the
  model stops. Log entry 6. -/
  | operationDuringReset
  /-- Raised by a cursor primitive used in the other mode's cursor: 'a model may leave the mixed case undefined (refuse
  it)' (R81; U6). No operation of the spec mixes them, so no meaning reaches it. Safe: the model stops. Log entry 8. -/
  | cursorModeMixed
deriving DecidableEq, Repr

/-- The machine right after reset (R33, R173): FRM_VARIANT holds LINK_VARIANT, FRM_BUF is empty, the configuration is
the hardware's, and nothing has crossed the port. -/
def State.reset : State where
  frmVariant := Config.hw.linkVariant
  frmBuf := []
  cfg := Config.hw
  inReset := false
  pending := []
  responses := []

end Sys2Proof.Machine
end

