-- ==== Sys2Proof/Machine/Ops.lean ====
section
/-! DEFINITION. The named operations over State that every meaning goes through: answering the host, `raise` (60_exceptions.md
R155, the block's only form of exception; there is no return from it, R169), the writes of the framer's state, reset
(70_reset_and_hazards.md R173), and taking the next input of the command port. -/

namespace Sys2Proof.Machine

open Sys2Proof

/-! ### Answering and raising -/

/-- Send the response packet of `r` (R50, R55). -/
def State.respond (s : State) (r : Response) : State :=
  { s with responses := s.responses ++ [encodeResponse r] }

/-- How an operation ends before its end: `raise S` (R13, R155), or something the model has no meaning for. -/
inductive Raise where
  /-- `raise S`. -/
  | status (e : ErrorStatus)
  /-- No meaning. -/
  | refuse (r : Refusal)
deriving DecidableEq, Repr

/-- `if not p: raise S` (R13). -/
def require (p : Prop) [Decidable p] (e : ErrorStatus) : Except Raise Unit :=
  if p then .ok () else .error (.status e)

/-- A cursor primitive inside a codec operation: OutOfRange ends the operation with FRAME_ERROR (R82), a primitive of
the other mode has no meaning (R81). -/
def codec {α : Type} : Except CursorError α → Except Raise α
  | .ok a => .ok a
  | .error .outOfRange => .error (.status .frameError)
  | .error .mixedMode => .error (.refuse .cursorModeMixed)

/-- End an operation that writes no block state: its results with status OK, or the raised status alone with no result;
in both cases the state is as it was, but for the response (R43, R55, R155). -/
def State.finish (s : State) (o : Except Raise Result) : Host.Outcome State Fault Refusal :=
  match o with
  | .ok r => .next (s.respond (.ok r))
  | .error (.status e) => .next (s.respond (.raised e))
  | .error (.refuse r) => .refused r

/-! ### The framer's state -/

/-- Write FRM_BUF (R24). -/
def State.setFrmBuf (s : State) (b : List Byte) : State := { s with frmBuf := b }

/-- Write FRM_VARIANT (R23). -/
def State.setFrmVariant (s : State) (v : Variant) : State := { s with frmVariant := v }

/-! ### Reset -/

/-- The reset action: FRM_VARIANT gets LINK_VARIANT, FRM_BUF is emptied, the configuration stays; no event, no response
(R173). -/
def State.resetAction (s : State) : State := (s.setFrmVariant s.cfg.linkVariant).setFrmBuf []

/-- The reset input is asserted (log entry 6). -/
def State.assertReset (s : State) : State := { s.resetAction with inReset := true }

/-- The reset input is released (log entry 6). -/
def State.releaseReset (s : State) : State := { s with inReset := false }

/-! ### Taking the next input -/

/-- The state once the input at the head of the port is taken. -/
def State.popInput (s : State) : State := { s with pending := s.pending.tail }

/-- What the next input asks for. -/
inductive Fetched where
  /-- The step is done: no operation runs. -/
  | done (s : State)
  /-- Operation `i` runs in state `s`. -/
  | run (i : Instr) (s : State)
  /-- The machine stops. -/
  | fault (r : Fault)
  /-- The model has no meaning for it. -/
  | refused (r : Refusal)
deriving DecidableEq, Repr

/-- Take the next input of the port. With none the block waits. A packet is decoded with the command-level priority of
R164: an undefined opcode answers ILLEGAL_OP, then a malformed packet answers BAD_PACKET, neither writing block state
(R53, R59); a packet during reset is refused (R175). -/
def State.fetch (s : State) : Fetched :=
  match s.pending with
  | [] => .done s
  | .resetAssert :: _ => .done s.popInput.assertReset
  | .resetRelease :: _ => .done s.popInput.releaseReset
  | .packet p :: _ =>
    if s.inReset then .refused .operationDuringReset
    else
      match decode p with
      | .ok i => .run i s.popInput
      | .error .noOpcode => .fault .emptyPacket
      | .error (.undefinedOpcode _) => .done (s.popInput.respond (.raised .illegalOp))
      | .error (.malformed _) => .done (s.popInput.respond (.raised .badPacket))

end Sys2Proof.Machine
end

