-- ==== Sys2Proof/Machine/Checksum.lean ====
section
/-! DEFINITION. The checksum operations (41_checksum.md). None writes block state; a range outside the sequence raises
OUT_OF_RANGE (R87). -/

namespace Sys2Proof.Machine

open Sys2Proof

/-- CK.SUM B, s, n (R88); `s + n` is computed without wrap. -/
def execCkSum (b : List Byte) (start n : U16) (s : State) : Host.Outcome State Fault Refusal :=
  s.finish do
    require (start.toNat + n.toNat ≤ b.length) .outOfRange
    return .checksum (sum8 b start.toNat n.toNat)

/-- CK.SUMEND B, s (R90). -/
def execCkSumEnd (b : List Byte) (start : U16) (s : State) : Host.Outcome State Fault Refusal :=
  s.finish do
    require (start.toNat ≤ b.length) .outOfRange
    return .checksum (ckGen b start.toNat)

/-- CK.SUMRNG B, s, e (R92); a reversed range is OUT_OF_RANGE. -/
def execCkSumRng (b : List Byte) (start stop : U16) (s : State) : Host.Outcome State Fault Refusal :=
  s.finish do
    require (start.toNat ≤ stop.toNat ∧ stop.toNat ≤ b.length) .outOfRange
    return .checksum (sum8 b start.toNat (stop.toNat - start.toNat))

/-- CK.VERIFY v, F (R94): a reserved variant is ILLEGAL_OP, a failed check is the result 0x00. -/
def execCkVerify (v : Byte) (f : List Byte) (s : State) : Host.Outcome State Fault Refusal :=
  s.finish <|
    match variantOfByte v with
    | none => .error (.status .illegalOp)
    | some w => .ok (.verdict (ckOk s.cfg w f))

end Sys2Proof.Machine
end

