-- ==== Sys2Proof/Machine/Framer.lean ====
section
/-! DEFINITION. The framer (44_framer.md): hunting, the drain procedure, resynchronisation, and FRM.RESET, FRM.CFG, FRM.FEED. -/

namespace Sys2Proof.Machine

open Sys2Proof

/-- `Hunt()`: drop the bytes before the first receive head; they make no event (R142). -/
def hunt (v : Variant) (buf : List Byte) : List Byte := buf.dropWhile fun b => decide (b ≠ rxHead v)

/-- What one pass of the drain loop decides about the buffer once `Hunt()` has run. -/
inductive Judgement where
  /-- `stop`: wait for more bytes. -/
  | wait
  /-- Reject the candidate: emit FRAME_ERR and resynchronise. -/
  | reject (r : FrameErrReason)
  /-- A complete candidate of this length. -/
  | complete (len : Nat)
deriving DecidableEq, Repr

/-- With EARLY_REJECT true: judge a candidate of declared length `len` as soon as the bytes that decide it are there
(R141, R144; priority R167). -/
def judgeEarly (cfg : Config) (v : Variant) (buf : List Byte) (len : Nat) : Judgement :=
  if len < fixedBytes then .reject .badLength
  else if cfg.maxFrame < len then .reject .oversize
  else if buf.length < len then .wait
  else if buf[len - 1]? ≠ some (rxTail cfg v) then .reject .badTail
  else .complete len

/-- With EARLY_REJECT false: a candidate is complete when its tail is found where its length says, and rejected only
when the buffer has grown past MAX_FRAME (R141, R145; priority R167). -/
def judgeLiteral (cfg : Config) (v : Variant) (buf : List Byte) (len : Nat) : Judgement :=
  if fixedBytes ≤ len ∧ len ≤ cfg.maxFrame ∧ len ≤ buf.length ∧ buf[len - 1]? = some (rxTail cfg v) then
    .complete len
  else if cfg.maxFrame < buf.length then .reject .oversize
  else .wait

/-- The decision of one pass of the drain loop (R141). -/
def judge (cfg : Config) (v : Variant) (buf : List Byte) : Judgement :=
  if buf.length < hdrLen v then .wait
  else if cfg.earlyReject then judgeEarly cfg v buf (declLen v buf)
  else judgeLiteral cfg v buf (declLen v buf)

/-- The event of a complete candidate: FRAME if its checksum is right, else CK_ERR (R146). -/
def classify (cfg : Config) (v : Variant) (f : List Byte) : Event :=
  if ckOk cfg v f then .frame f else .ckErr f

/-- The drain loop (R141), with a bound on its passes: each pass stops or removes at least one byte, so a bound above the
buffer's length is never used up (log entry 12). A rejected candidate loses its head byte only (`Resync()`), a complete one is
consumed whole (R143). It returns the events found, in order, and the buffer left. -/
def drainLoop (cfg : Config) (v : Variant) : Nat → List Byte → List Event × List Byte
  | 0, buf => ([], buf)
  | fuel + 1, buf =>
    let buf := hunt v buf
    match judge cfg v buf with
    | .wait => ([], buf)
    | .reject r =>
      let (ev, rest) := drainLoop cfg v fuel (buf.drop 1)
      (.frameErr r :: ev, rest)
    | .complete len =>
      let (ev, rest) := drainLoop cfg v fuel (buf.drop len)
      (classify cfg v (buf.take len) :: ev, rest)

/-- `Drain()` (R141). -/
def drain (cfg : Config) (v : Variant) (buf : List Byte) : List Event × List Byte :=
  drainLoop cfg v (buf.length + 1) buf

/-- The per-byte step applied to each byte of a chunk in order: append the byte, then `Drain()` (R139). -/
def feedBytes (cfg : Config) (v : Variant) : List Byte → List Byte → List Event × List Byte
  | [], buf => ([], buf)
  | b :: chunk, buf =>
    let (ev, buf) := drain cfg v (buf ++ [b])
    let (ev', buf) := feedBytes cfg v chunk buf
    (ev ++ ev', buf)

/-- FRM.RESET (R135): FRM_BUF is emptied without an event; FRM_VARIANT stays. -/
def execFrmReset (s : State) : Host.Outcome State Fault Refusal :=
  .next ((s.setFrmBuf []).respond (.ok .nothing))

/-- FRM.CFG v (R137): FRM_VARIANT gets v and FRM_BUF is emptied, even when v is the current variant; a reserved v is ILLEGAL_OP
and writes nothing. -/
def execFrmCfg (v : Byte) (s : State) : Host.Outcome State Fault Refusal :=
  match variantOfByte v with
  | none => s.finish (.error (.status .illegalOp))
  | some w => .next (((s.setFrmVariant w).setFrmBuf []).respond (.ok .nothing))

/-- FRM.FEED C (R139): framing and checksum failures are events, not statuses. -/
def execFrmFeed (c : List Byte) (s : State) : Host.Outcome State Fault Refusal :=
  let out := feedBytes s.cfg s.frmVariant c s.frmBuf
  .next ((s.setFrmBuf out.2).respond (.ok (.events out.1)))

end Sys2Proof.Machine
end

