-- ==== Sys2Proof/Machine/InstrumentCodec.lean ====
section
/-! DEFINITION. The Instrument codec (42_codec_instrument.md): ENC.I, DEC.I and the payload interpretation. -/

namespace Sys2Proof.Machine

open Sys2Proof

/-- The result of ENC.I (R99): ENC_LENGTH for a payload over 249 bytes, else the frame assembled field by field. -/
def encodeInstrFrame (cfg : Config) (a c : Byte) (p : List Byte) : Except Raise Result := do
  require (p.length ≤ instrMaxPayload) .encLength
  let cur := Cursor.newAssembly
  let cur ← codec (cur.put instrHead)
  let cur ← codec (cur.put (.ofNat 8 (fixedBytes + p.length)))
  let cur ← codec (cur.put a)
  let cur ← codec (cur.put c)
  let cur ← codec (cur.putN p)
  let cur ← codec (cur.put (ckGen cur.bytes cfg.instrCkStart.offset))
  let cur ← codec (cur.put instrTail)
  return .frame cur.bytes

/-- `InterpI(pcc, P)` (R109, R111). -/
def interpI (cfg : Config) (pcc : Byte) (p : List Byte) : Value :=
  match cfg.layoutOf pcc with
  | some l => .numeric (l.fields.map fun f => ⟨be16 p f.off, f.div.toU16⟩)
  | none => .text p

/-- The result of DEC.I (R104): the checks in the order of R165, the first that fails being the one reported. The layout check
gives FRAME_ERROR as R104 says; log entry 9. -/
def decodeInstrFrame (cfg : Config) (pcc : Byte) (f : List Byte) : Except Raise Result := do
  let cur := Cursor.newParse f
  require (f[0]? = some instrHead) .frameError
  let (_, cur) ← codec cur.get
  let (len, cur) ← codec cur.get
  require (len.toNat = f.length) .frameError
  require (fixedBytes ≤ len.toNat) .frameError
  let (a, cur) ← codec cur.get
  let (c, cur) ← codec cur.get
  let n := len.toNat - fixedBytes
  let (p, cur) ← codec (cur.getN n)
  require (∀ l ∈ cfg.layoutOf pcc, l.len = n) .frameError
  let (k, cur) ← codec cur.get
  require (sum8 f cfg.instrCkStart.offset (4 + n - cfg.instrCkStart.offset) = k) .checksumError
  let (t, _) ← codec cur.get
  require (t = instrTail) .frameError
  return .decoded a c p (interpI cfg pcc p)

/-- ENC.I a, c, P (R99). -/
def execEncI (a c : Byte) (p : List Byte) (s : State) : Host.Outcome State Fault Refusal :=
  s.finish (encodeInstrFrame s.cfg a c p)

/-- DEC.I pcc, F (R104). -/
def execDecI (pcc : Byte) (f : List Byte) (s : State) : Host.Outcome State Fault Refusal :=
  s.finish (decodeInstrFrame s.cfg pcc f)

end Sys2Proof.Machine
end

