-- ==== Sys2Proof/Machine/PlateCodec.lean ====
section
/-! DEFINITION. The Plate codec (43_codec_plate.md): PADDR, ENC.P, DEC.P, the measurement interpretation, and the host's decimal
rendering of a measurement. -/

namespace Sys2Proof.Machine

open Sys2Proof

/-- The result of ENC.P (R119): ENC_LENGTH for more than 255 parameter bytes, else the outbound frame assembled field by field. -/
def encodePlateFrame (a c : Byte) (p : List Byte) : Except Raise Result := do
  require (p.length ≤ plateMaxParam) .encLength
  let cur := Cursor.newAssembly
  let cur ← codec (cur.put plateOutHead)
  let cur ← codec (cur.put a)
  let cur ← codec (cur.put c)
  let cur ← codec (cur.put (.ofNat 8 p.length))
  let cur ← codec (cur.putN p)
  let cur ← codec (cur.put (ckGen cur.bytes 0))
  let cur ← codec (cur.put plateOutTail)
  return .frame cur.bytes

/-- `InterpP(a, c, P)` (R128, R129): a measurement code with a parameter of another length than 2 raises UNKNOWN. -/
def interpP (cfg : Config) (a c : Byte) (p : List Byte) : Except Raise Result :=
  if c ∈ cfg.plateMeasCodes then do
    require (p.length = 2) .unknown
    return .decoded a c p (.numeric [⟨be16 p 0, 100⟩])
  else
    return .decoded a c p .none

/-- The result of DEC.P (R124): the checks in the order of R166, the first that fails being the one reported. -/
def decodePlateFrame (cfg : Config) (f : List Byte) : Except Raise Result := do
  let cur := Cursor.newParse f
  require (f[0]? = some plateInHead) .frameError
  let (_, cur) ← codec cur.get
  let (a, cur) ← codec cur.get
  require (socketBase.toNat ≤ a.toNat) .frameError
  let (c, cur) ← codec cur.get
  let (len, cur) ← codec cur.get
  let n := len.toNat
  require (n + fixedBytes = f.length) .frameError
  let (p, cur) ← codec (cur.getN n)
  let (k, cur) ← codec cur.get
  require (sum8 f 0 (4 + n) = k) .checksumError
  let (t, _) ← codec cur.get
  require (t = cfg.plateRxTail) .frameError
  interpP cfg a c p

/-- PADDR i (R116). -/
def execPAddr (i : Byte) (s : State) : Host.Outcome State Fault Refusal :=
  s.finish do
    require (i.toNat ≤ 0x7F) .outOfRange
    return .address (i + socketBase)

/-- ENC.P a, c, P (R119). -/
def execEncP (a c : Byte) (p : List Byte) (s : State) : Host.Outcome State Fault Refusal :=
  s.finish (encodePlateFrame a c p)

/-- DEC.P F (R124). -/
def execDecP (f : List Byte) (s : State) : Host.Outcome State Fault Refusal :=
  s.finish (decodePlateFrame s.cfg f)

/-- The decimal rendering of a (raw, 100) pair, `q "." r2` (R130). It belongs to the host: no operation uses it. -/
def decimalRendering (raw : Nat) : String :=
  toString (raw / 100) ++ "." ++ toString (raw % 100 / 10) ++ toString (raw % 10)

end Sys2Proof.Machine
end

