-- ==== Sys2Proof/Machine/Dispatch.lean ====
section
/-! DEFINITION. The meaning of every operation, one arm per row of the opcode map (30_encoding.md R54). -/

namespace Sys2Proof.Machine

open Sys2Proof

def exec (i : Instr) (s : State) : Host.Outcome State Fault Refusal :=
  match i with
  | .ckSum b start n => Sys2Proof.Machine.execCkSum b start n s
  | .ckSumEnd b start => Sys2Proof.Machine.execCkSumEnd b start s
  | .ckSumRng b start stop => Sys2Proof.Machine.execCkSumRng b start stop s
  | .ckVerify v f => Sys2Proof.Machine.execCkVerify v f s
  | .encI a c p => Sys2Proof.Machine.execEncI a c p s
  | .decI pcc f => Sys2Proof.Machine.execDecI pcc f s
  | .pAddr n => Sys2Proof.Machine.execPAddr n s
  | .encP a c p => Sys2Proof.Machine.execEncP a c p s
  | .decP f => Sys2Proof.Machine.execDecP f s
  | .frmReset => Sys2Proof.Machine.execFrmReset s
  | .frmCfg v => Sys2Proof.Machine.execFrmCfg v s
  | .frmFeed c => Sys2Proof.Machine.execFrmFeed c s

end Sys2Proof.Machine
end

