-- ==== Sys2Proof/Machine/Step.lean ====
section
/-! DEFINITION. One step of the block: take the next input of the command port, and run the operation it carries (30_encoding.md
R50, 20_memory.md R42, R46). -/

namespace Sys2Proof.Machine

open Sys2Proof

/-- One step. -/
def step (s : State) : Host.Outcome State Fault Refusal :=
  match s.fetch with
  | .done t => .next t
  | .run i t => exec i t
  | .fault r => .fault r
  | .refused r => .refused r

/-- The state in which the very next step runs the operation of an opcode-table word: its packet stands first at the port
and the reset input is not held (log entry 4). -/
def State.withFetchWord (s : State) (nbits w : Nat) : State :=
  { s with pending := .packet (packetOfWord nbits w) :: s.pending, inReset := false }

end Sys2Proof.Machine
end

