-- ==== Sys2Proof/Machine/Assembler.lean ====
section
/-! DEFINITION. The assembler syntax and pseudo-operations (30_encoding.md part C). They name packets; no step of the machine uses
them. -/

namespace Sys2Proof.Machine

open Sys2Proof

/-! ### Pseudo-operations (R73) -/

/-- The pseudo-operations (R73). -/
inductive PseudoOp where
  /-- ENC.P.SOCK i, c, [P]. -/
  | encPSock (i c : Byte) (p : List Byte)
  /-- FRM.FEED1 b. -/
  | frmFeed1 (b : Byte)
  /-- CK.SUMALL [B]. -/
  | ckSumAll (b : List Byte)
deriving DecidableEq, Repr

/-- The operations a pseudo-operation stands for (R73). ENC.P.SOCK carries PADDR's result into ENC.P, and ends at the PADDR
when that fails. -/
def PseudoOp.expand : PseudoOp → List Instr
  | .encPSock i c p => if i.toNat ≤ 0x7F then [.pAddr i, .encP (i + 0x80) c p] else [.pAddr i]
  | .frmFeed1 b => [.frmFeed [b]]
  | .ckSumAll b => [.ckSum b 0 (.ofNat 16 b.length)]

/-! ### Assembler (R72) -/

/-- The mnemonic of an opcode (R54). -/
def opcodeMnemonic : Opcode → List Char
  | .ckSum => "CK.SUM".toList
  | .ckSumEnd => "CK.SUMEND".toList
  | .ckSumRng => "CK.SUMRNG".toList
  | .ckVerify => "CK.VERIFY".toList
  | .encI => "ENC.I".toList
  | .decI => "DEC.I".toList
  | .pAddr => "PADDR".toList
  | .encP => "ENC.P".toList
  | .decP => "DEC.P".toList
  | .frmReset => "FRM.RESET".toList
  | .frmCfg => "FRM.CFG".toList
  | .frmFeed => "FRM.FEED".toList

/-- The value of a digit in base 16. -/
def digitValue (ch : Char) : Option Nat :=
  if '0' ≤ ch ∧ ch ≤ '9' then some (ch.toNat - '0'.toNat)
  else if 'A' ≤ ch ∧ ch ≤ 'F' then some (ch.toNat - 'A'.toNat + 10)
  else if 'a' ≤ ch ∧ ch ≤ 'f' then some (ch.toNat - 'a'.toNat + 10)
  else none

/-- The number a non-empty string of digits of `base` writes. -/
def digitsValue (base : Nat) (cs : List Char) : Option Nat :=
  if cs.isEmpty then none
  else cs.foldl (fun acc ch => do
    let n ← acc
    let d ← digitValue ch
    if d < base then some (n * base + d) else none) (some 0)

/-- A number operand: `0xHH` or decimal (R72). -/
def numberOf : List Char → Option Nat
  | '0' :: 'x' :: cs => digitsValue 16 cs
  | cs => digitsValue 10 cs

/-- Cut a text at every character that `p` picks. -/
def cutAt (p : Char → Bool) : List Char → List (List Char)
  | [] => [[]]
  | ch :: cs =>
    match cutAt p cs with
    | [] => [[ch]]
    | w :: ws => if p ch then [] :: w :: ws else (ch :: w) :: ws

/-- A text without its leading and trailing spaces. -/
def trimSpaces (cs : List Char) : List Char :=
  ((cs.dropWhile (· = ' ')).reverse.dropWhile (· = ' ')).reverse

/-- A SEQ operand: a bracketed list of two-digit hex bytes (R72). -/
def seqOf (cs : List Char) : Option (List Byte) :=
  match cs with
  | '[' :: rest =>
    match rest.reverse with
    | ']' :: inner =>
      ((cutAt (· = ' ') inner.reverse).filter (fun w => !w.isEmpty)).mapM fun w => do
        if w.length = 2 then (digitsValue 16 w).map (BitVec.ofNat 8) else none
    | _ => none
  | _ => none

/-- Whether the first `u8` operand of an opcode is a variant, which may be written `I` or `P` (R72). -/
def opcodeTakesVariant : Opcode → Bool
  | .ckVerify => true
  | .frmCfg => true
  | _ => false

/-- The packet bytes of one operand of the given kind. -/
def assembleOperand (variant : Bool) (k : OperandKind) (cs : List Char) : Option (List Byte) :=
  match k with
  | .u8 =>
    if variant ∧ cs = ['I'] then some [0x00]
    else if variant ∧ cs = ['P'] then some [0x01]
    else do
      let n ← numberOf cs
      if n < 256 then some [.ofNat 8 n] else none
  | .u16 => do
    let n ← numberOf cs
    if n < 65536 then some (bytesOfU16 (.ofNat 16 n)) else none
  | .seq => do
    let b ← seqOf cs
    if b.length ≤ 65535 then some (bytesOfSeq b) else none

/-- The packet bytes of the operands, one text for each kind, in order. -/
def assembleOperands (variant : Bool) : List OperandKind → List (List Char) → Option (List Byte)
  | [], [] => some []
  | k :: ks, t :: ts => do
    let b ← assembleOperand variant k (trimSpaces t)
    let rest ← assembleOperands variant ks ts
    some (b ++ rest)
  | _, _ => none

/-- The command packet of one line `MNEMONIC operand, operand, ... ; comment` (R72); none if it is no such line. -/
def assembleLine (line : String) : Option (List Byte) := do
  let text := trimSpaces (line.toList.takeWhile (· ≠ ';'))
  let mnemonic := text.takeWhile (· ≠ ' ')
  let rest := trimSpaces (text.drop mnemonic.length)
  let o ← Opcode.all.find? fun o => decide (opcodeMnemonic o = mnemonic)
  let operands ← assembleOperands (opcodeTakesVariant o) o.operands
    (if rest.isEmpty then [] else cutAt (· = ',') rest)
  some (o.byte :: operands)

end Sys2Proof.Machine
end

