-- ==== Sys2Proof/Safety.lean ====
section
/-! DEFINITION. What counts as a sound state and a safe step of the block, in the terms the statements use. -/

namespace Sys2Proof.Machine

open Sys2Proof

/-- The framer's phases (10_state.md R26): a function of FRM_BUF, not a state element. -/
inductive Phase where
  /-- Hunting for a head. -/
  | idle
  /-- Head found, length field not yet complete. -/
  | header
  /-- Length known, waiting for the rest of the candidate. -/
  | body
deriving DecidableEq, Repr

/-- The framer's phase (R26). -/
def State.phase (s : State) : Phase :=
  if s.frmBuf.length = 0 then .idle
  else if s.frmBuf.length < hdrLen s.frmVariant then .header
  else .body

/-- The invariant of FRM_BUF (R25): (a) empty or starting with the receive head; (b) at most MAX_FRAME bytes; (c) with EARLY_REJECT,
once the header is complete the declared length is legal and not yet reached. -/
def State.bufInv (s : State) : Prop :=
  (s.frmBuf = [] ∨ s.frmBuf.head? = some (rxHead s.frmVariant)) ∧
  s.frmBuf.length ≤ s.cfg.maxFrame ∧
  (s.cfg.earlyReject = true → hdrLen s.frmVariant ≤ s.frmBuf.length →
    6 ≤ declLen s.frmVariant s.frmBuf ∧ declLen s.frmVariant s.frmBuf ≤ s.cfg.maxFrame ∧
      s.frmBuf.length < declLen s.frmVariant s.frmBuf)

/-- A sound state: the configuration meets R9's constraints and FRM_BUF its invariant. -/
def State.inv (s : State) : Prop := s.cfg.wf = true ∧ s.bufInv

/-! ### What the statements are written with

The shapes below are written from the spec's tables (30_encoding.md R51, R57, R58, R60, R62, R63), not from the meanings, so that a
statement says what the spec says and not what the model does. -/

/-- The state with one more response packet sent, everything else as it was. -/
def State.answered (s : State) (bytes : List Byte) : State := { s with responses := s.responses ++ [bytes] }

/-- A SEQ on the port: its count, high byte first, then its bytes (R51). -/
def seqBytes (b : List Byte) : List Byte := .ofNat 8 (b.length / 256) :: .ofNat 8 b.length :: b

/-- The bytes of an event (R58). -/
def eventBytes : Event → List Byte
  | .frame f => 0x00 :: seqBytes f
  | .frameErr .badLength => [0x01, 0x00]
  | .frameErr .badTail => [0x01, 0x01]
  | .frameErr .oversize => [0x01, 0x02]
  | .ckErr f => 0x02 :: seqBytes f

/-- The response packet of a FRM.FEED that found the events `ev`: OK, the count as a `u32`, the events in order (R58). -/
def feedResponse (ev : List Event) : List Byte :=
  [0x00, .ofNat 8 (ev.length / 2 ^ 24), .ofNat 8 (ev.length / 2 ^ 16), .ofNat 8 (ev.length / 2 ^ 8), .ofNat 8 ev.length] ++
    ev.flatMap eventBytes

/-- `B[s] + ... + B[s+n-1]`, on unbounded integers (R85). -/
def rangeSum (b : List Byte) (start n : Nat) : Nat := ∑ j ∈ Finset.range n, (b.getD (start + j) 0).toNat

/-- The checksum predicate of R91 with start offset `start`. -/
def ckHolds (start : Nat) (f : List Byte) : Prop :=
  6 ≤ f.length ∧ rangeSum f start (f.length - 2 - start) % 256 = (f.getD (f.length - 2) 0).toNat

/-- An Instrument frame as R60 draws it, with checksum byte `k` and tail byte `t`. -/
def instrFrame (a c : Byte) (p : List Byte) (k t : Byte) : List Byte :=
  [0x7B, .ofNat 8 (6 + p.length), a, c] ++ p ++ [k, t]

/-- The checksum of an Instrument frame: the address, the control code, the payload, and with start offset 1 TOTAL_LENGTH
too (R61). -/
def instrCk (start : CkStart) (a c : Byte) (p : List Byte) : Byte :=
  .ofNat 8 ((match start with | .one => 6 + p.length | .two => 0) + a.toNat + c.toNat + (p.map BitVec.toNat).sum)

/-- A Plate frame as R62 and R63 draw it, with head `h`, checksum byte `k` and tail byte `t`. -/
def plateFrame (h a c : Byte) (p : List Byte) (k t : Byte) : List Byte :=
  [h, a, c, .ofNat 8 p.length] ++ p ++ [k, t]

/-- The checksum of a Plate frame: head, address, control code, length and parameters (R64). -/
def plateCk (h a c : Byte) (p : List Byte) : Byte :=
  .ofNat 8 (h.toNat + a.toNat + c.toNat + p.length + (p.map BitVec.toNat).sum)

/-- The layout of `pcc`, where it has one, asks for `n` payload bytes (R104). -/
def LayoutFits (cfg : Config) (pcc : Byte) (n : Nat) : Prop := ∀ l ∈ cfg.layoutOf pcc, l.len = n

/-- The bytes of the VALUE that DEC.I returns for the payload `p` under `pcc` (R57, R109, R111). -/
def instrValueBytes (cfg : Config) (pcc : Byte) (p : List Byte) : List Byte :=
  match cfg.layoutOf pcc with
  | none => 0x02 :: seqBytes p
  | some l => 0x01 :: .ofNat 8 l.fields.length :: l.fields.flatMap fun f =>
      [p.getD f.off 0, p.getD (f.off + 1) 0] ++
        (match f.div with | .one => [0x00, 0x01] | .ten => [0x00, 0x0A] | .thousand => [0x03, 0xE8])

/-- The receive head of a variant (R133). -/
def headOf : Variant → Byte
  | .instr => 0x7B
  | .plate => 0x4F

/-- The receive tail of a variant (R133). -/
def tailOf (cfg : Config) : Variant → Byte
  | .instr => 0x7D
  | .plate => cfg.plateRxTail

/-- The longest variable field of a variant (R10). -/
def maxField : Variant → Nat
  | .instr => 249
  | .plate => 255

/-- A frame as the receive path meets it, with checksum byte `k` and tail byte `t` (R60, R63). -/
def rxFrame (v : Variant) (a c : Byte) (p : List Byte) (k t : Byte) : List Byte :=
  match v with
  | .instr => instrFrame a c p k t
  | .plate => plateFrame 0x4F a c p k t

/-- The checksum a received frame must have (R91). -/
def rxCk (cfg : Config) (v : Variant) (a c : Byte) (p : List Byte) : Byte :=
  match v with
  | .instr => instrCk cfg.instrCkStart a c p
  | .plate => plateCk 0x4F a c p

/-- The opcodes R59(a) lists as undefined. -/
def UndefinedOpcode (opc : Byte) : Prop :=
  opc.toNat ≤ 0x0F ∨ (0x14 ≤ opc.toNat ∧ opc.toNat ≤ 0x1F) ∨ (0x22 ≤ opc.toNat ∧ opc.toNat ≤ 0x2F) ∨
    (0x33 ≤ opc.toNat ∧ opc.toNat ≤ 0x3F) ∨ 0x43 ≤ opc.toNat

/-- The opcode byte of an operation, and its answer to a packet of the wrong length: BAD_PACKET, nothing written (R53, R54). -/
def PortRule (o : Opcode) (code : Byte) : Prop :=
  o.byte = code ∧
  ∀ (s : State) (bs : List Byte) (rest : List PortInput), s.inReset = false → s.pending = .packet (code :: bs) :: rest →
    (code :: bs).length ≠ o.packetLength bs → step s = .next (State.answered { s with pending := rest } [0x08])

/-- The nine operations R43 calls pure: the transmit path and the decoders. -/
def isPure : Instr → Bool
  | .frmReset => false
  | .frmCfg _ => false
  | .frmFeed _ => false
  | _ => true

/-- The statuses R56's table lets an operation answer once its packet is well formed. -/
def statusesOf : Instr → List Byte
  | .ckSum .. => [0x00, 0x05]
  | .ckSumEnd .. => [0x00, 0x05]
  | .ckSumRng .. => [0x00, 0x05]
  | .ckVerify .. => [0x00, 0x07]
  | .encI .. => [0x00, 0x06]
  | .decI .. => [0x00, 0x01, 0x02]
  | .pAddr _ => [0x00, 0x05]
  | .encP .. => [0x00, 0x06]
  | .decP _ => [0x00, 0x01, 0x02, 0x03]
  | .frmReset => [0x00]
  | .frmCfg _ => [0x00, 0x07]
  | .frmFeed _ => [0x00]

/-! ### The drain procedure as the spec writes it

`DrainRun` is R141's loop rule by rule, without a bound on its passes; `FeedRun` is R139's loop over a chunk. -/

/-- `Hunt()` has nothing to discard: the buffer is empty or starts with the receive head (R142). -/
def AtHead (v : Variant) (buf : List Byte) : Prop := buf = [] ∨ buf.head? = some (headOf v)

/-- The candidate at the head of the buffer is complete: legal length, all its bytes there, the tail where the length says. -/
def CompleteCandidate (cfg : Config) (v : Variant) (buf : List Byte) : Prop :=
  6 ≤ declLen v buf ∧ declLen v buf ≤ cfg.maxFrame ∧ declLen v buf ≤ buf.length ∧
    buf[declLen v buf - 1]? = some (tailOf cfg v)

/-- `DrainRun cfg v buf ev out`: `Drain()` on `buf` emits `ev` and leaves `out` (R141 to R146). -/
inductive DrainRun (cfg : Config) (v : Variant) : List Byte → List Event → List Byte → Prop where
  /-- `Hunt()` discards a byte that is not the head, without an event. -/
  | hunt {b : Byte} {buf : List Byte} {ev : List Event} {out : List Byte} :
      b ≠ headOf v → DrainRun cfg v buf ev out → DrainRun cfg v (b :: buf) ev out
  /-- `if |FRM_BUF| < HdrLen(v): stop`. -/
  | header {buf : List Byte} : AtHead v buf → buf.length < hdrLen v → DrainRun cfg v buf [] buf
  /-- EARLY_REJECT: `L < 6`. -/
  | badLength {buf : List Byte} {ev : List Event} {out : List Byte} :
      AtHead v buf → hdrLen v ≤ buf.length → cfg.earlyReject = true → declLen v buf < 6 →
      DrainRun cfg v (buf.drop 1) ev out → DrainRun cfg v buf (.frameErr .badLength :: ev) out
  /-- EARLY_REJECT: `L > MAX_FRAME`. -/
  | oversize {buf : List Byte} {ev : List Event} {out : List Byte} :
      AtHead v buf → hdrLen v ≤ buf.length → cfg.earlyReject = true → 6 ≤ declLen v buf → cfg.maxFrame < declLen v buf →
      DrainRun cfg v (buf.drop 1) ev out → DrainRun cfg v buf (.frameErr .oversize :: ev) out
  /-- EARLY_REJECT: `|FRM_BUF| < L: stop`. -/
  | body {buf : List Byte} :
      AtHead v buf → hdrLen v ≤ buf.length → cfg.earlyReject = true → 6 ≤ declLen v buf → declLen v buf ≤ cfg.maxFrame →
      buf.length < declLen v buf → DrainRun cfg v buf [] buf
  /-- EARLY_REJECT: the tail is wrong. -/
  | badTail {buf : List Byte} {ev : List Event} {out : List Byte} :
      AtHead v buf → hdrLen v ≤ buf.length → cfg.earlyReject = true → 6 ≤ declLen v buf → declLen v buf ≤ cfg.maxFrame →
      declLen v buf ≤ buf.length → buf[declLen v buf - 1]? ≠ some (tailOf cfg v) →
      DrainRun cfg v (buf.drop 1) ev out → DrainRun cfg v buf (.frameErr .badTail :: ev) out
  /-- No EARLY_REJECT: no complete candidate and the buffer past MAX_FRAME. -/
  | literalOversize {buf : List Byte} {ev : List Event} {out : List Byte} :
      AtHead v buf → hdrLen v ≤ buf.length → cfg.earlyReject = false → ¬CompleteCandidate cfg v buf →
      cfg.maxFrame < buf.length → DrainRun cfg v (buf.drop 1) ev out → DrainRun cfg v buf (.frameErr .oversize :: ev) out
  /-- No EARLY_REJECT: no complete candidate: `stop`. -/
  | literalWait {buf : List Byte} :
      AtHead v buf → hdrLen v ≤ buf.length → cfg.earlyReject = false → ¬CompleteCandidate cfg v buf →
      buf.length ≤ cfg.maxFrame → DrainRun cfg v buf [] buf
  /-- A complete candidate whose checksum is right: FRAME, consumed whole. -/
  | frame {buf : List Byte} {ev : List Event} {out : List Byte} :
      AtHead v buf → hdrLen v ≤ buf.length → CompleteCandidate cfg v buf →
      ckHolds (ckStart cfg v) (buf.take (declLen v buf)) →
      DrainRun cfg v (buf.drop (declLen v buf)) ev out →
      DrainRun cfg v buf (.frame (buf.take (declLen v buf)) :: ev) out
  /-- A complete candidate whose checksum is wrong: CK_ERR, consumed whole. -/
  | ckErr {buf : List Byte} {ev : List Event} {out : List Byte} :
      AtHead v buf → hdrLen v ≤ buf.length → CompleteCandidate cfg v buf →
      ¬ckHolds (ckStart cfg v) (buf.take (declLen v buf)) →
      DrainRun cfg v (buf.drop (declLen v buf)) ev out →
      DrainRun cfg v buf (.ckErr (buf.take (declLen v buf)) :: ev) out

/-- A candidate that can never become a frame (R145): its header is complete, and its declared length is below 6 or above MAX_FRAME, or the
byte where its length puts the tail is there and is not the tail. -/
def ImpossibleCandidate (cfg : Config) (v : Variant) (buf : List Byte) : Prop :=
  hdrLen v ≤ buf.length ∧
    (declLen v buf < 6 ∨ cfg.maxFrame < declLen v buf ∨
      (declLen v buf ≤ buf.length ∧ buf[declLen v buf - 1]? ≠ some (tailOf cfg v)))

/-- Why a candidate at the head of `buf` is rejected with reason `r` (R58): with EARLY_REJECT each reason has its own cause (R144), without
it the one reason is OVERSIZE, for a buffer past MAX_FRAME with no complete candidate at its head (R145). -/
def RejectedFor (cfg : Config) (v : Variant) (buf : List Byte) (r : FrameErrReason) : Prop :=
  buf.head? = some (headOf v) ∧ hdrLen v ≤ buf.length ∧
    if cfg.earlyReject then
      match r with
      | .badLength => declLen v buf < 6
      | .oversize => cfg.maxFrame < declLen v buf
      | .badTail => 6 ≤ declLen v buf ∧ declLen v buf ≤ cfg.maxFrame ∧ declLen v buf ≤ buf.length ∧
          buf[declLen v buf - 1]? ≠ some (tailOf cfg v)
    else r = .oversize ∧ cfg.maxFrame < buf.length ∧ ¬CompleteCandidate cfg v buf

/-- FRM.FEED of `chunk` in state `s` answers the events `ev` and leaves `out` in FRM_BUF, and changes nothing else. -/
def FeedAnswers (s : State) (chunk : List Byte) (ev : List Event) (out : List Byte) : Prop :=
  exec (.frmFeed chunk) s = .next { s with frmBuf := out, responses := s.responses ++ [feedResponse ev] }

/-- `FeedRun cfg v chunk buf ev out`: feeding `chunk` to a framer holding `buf` emits `ev` and leaves `out` (R139). -/
inductive FeedRun (cfg : Config) (v : Variant) : List Byte → List Byte → List Event → List Byte → Prop where
  | nil {buf : List Byte} : FeedRun cfg v [] buf [] buf
  | cons {b : Byte} {chunk buf mid out : List Byte} {ev ev' : List Event} :
      DrainRun cfg v (buf ++ [b]) ev mid → FeedRun cfg v chunk mid ev' out →
      FeedRun cfg v (b :: chunk) buf (ev ++ ev') out

end Sys2Proof.Machine
end

