-- ==== Sys2Proof/Certificates/Slice0/Obligations.lean ====
section
/-! DEFINITION. The statements about the model, for the provers. `State.answered`, the frame shapes and the checksums they are
written with are in Sys2Proof/Safety.lean, taken from the spec's tables. An equation `exec i s = .next (s.answered r)` says
the whole effect: the response packet `r` is sent and nothing else of the state changes. -/

open Sys2Proof Sys2Proof.Machine

/-! ## The command port -/

/-- Every well-formed operation is read back from its packet, with every operand (30_encoding.md A.1, A.2). -/
def Obligations.DecodeInvertsEncode : Prop :=
  ∀ i : Instr, i.wellFormed = true → decode (encode i) = .ok i

/-- A packet that decodes is the one packet of its operation, and the operation is well formed (30_encoding.md A.1, A.2). -/
def Obligations.EncodeInvertsDecode : Prop :=
  ∀ (p : List Byte) (i : Instr), decode p = .ok i → i.wellFormed = true ∧ encode i = p

/-- Packets written out in 30_encoding.md R74 and 95_test_vectors.md (CP-1, CP-7, P2, P4) decode to the operations they stand for, and
the assembler's line for CP-1 is that packet. -/
def Obligations.WrittenPacketsDecode : Prop :=
  decode [0x20, 0x01, 0x04, 0x00, 0x00] = .ok (.encI 0x01 0x04 []) ∧
  assembleLine "ENC.I 0x01, 0x04, []" = some [0x20, 0x01, 0x04, 0x00, 0x00] ∧
  decode [0x10, 0x00, 0x06, 0x7B, 0x06, 0x01, 0x04, 0x0B, 0x7D, 0x00, 0x04, 0x00, 0x03] =
    .ok (.ckSum [0x7B, 0x06, 0x01, 0x04, 0x0B, 0x7D] 4 3) ∧
  decode [0x31, 0x81, 0x26, 0x00, 0x00] = .ok (.encP 0x81 0x26 []) ∧
  decode [0x30, 0x80] = .ok (.pAddr 0x80) ∧
  decode [0x42, 0x00, 0x01, 0x7B] = .ok (.frmFeed [0x7B])

/-- R59: (a) an undefined opcode answers ILLEGAL_OP whatever follows it and writes nothing; (b) so does a reserved variant operand of
CK.VERIFY or FRM.CFG. -/
def Obligations.IllegalEncodingsAnswerIllegalOp : Prop :=
  (∀ (s : State) (opc : Byte) (bs : List Byte) (rest : List PortInput), UndefinedOpcode opc → s.inReset = false →
    s.pending = .packet (opc :: bs) :: rest →
    step s = .next (State.answered { s with pending := rest } [0x07])) ∧
  (∀ (s : State) (v : Byte) (f : List Byte), 1 < v.toNat →
    exec (.ckVerify v f) s = .next (s.answered [0x07]) ∧ exec (.frmCfg v) s = .next (s.answered [0x07]))

/-- R53: with a defined opcode, a packet of exactly the layout's length is an operation of that opcode, and any other answers BAD_PACKET
and writes nothing. -/
def Obligations.MalformedPacketsAnswerBadPacket : Prop :=
  ∀ (o : Opcode) (bs : List Byte),
    ((o.byte :: bs).length = o.packetLength bs → ∃ i, i.opcode = o ∧ decode (o.byte :: bs) = .ok i) ∧
    ((o.byte :: bs).length ≠ o.packetLength bs →
      ∀ (s : State) (rest : List PortInput), s.inReset = false → s.pending = .packet (o.byte :: bs) :: rest →
        step s = .next (State.answered { s with pending := rest } [0x08]))

/-- A step whose next input is a packet that decodes runs exactly that operation, on the state with the packet taken. -/
def Obligations.StepRunsTheDecodedOperation : Prop :=
  ∀ (s : State) (p : List Byte) (rest : List PortInput) (i : Instr), s.inReset = false → s.pending = .packet p :: rest →
    decode p = .ok i → i.wellFormed = true ∧ step s = exec i { s with pending := rest }

/-- Every packet of at least one byte is answered by exactly one response packet, whose status is never TIMEOUT (R163) nor a reserved
one, and which stands alone unless it is OK. -/
def Obligations.EveryPacketGetsOneResponse : Prop :=
  ∀ (s : State) (p : List Byte) (rest : List PortInput), s.inReset = false → p ≠ [] → s.pending = .packet p :: rest →
    ∃ (t : State) (st : Byte) (body : List Byte), step s = .next t ∧ t.pending = rest ∧ t.inReset = false ∧
      t.responses = s.responses ++ [st :: body] ∧
      st ∈ ([0x00, 0x01, 0x02, 0x03, 0x05, 0x06, 0x07, 0x08] : List Byte) ∧ (st ≠ 0x00 → body = [])

/-- Every operation completes in every state, with a status that R56's table lets it answer, alone unless it is OK. -/
def Obligations.EveryOperationAnswersItsStatuses : Prop :=
  ∀ (i : Instr) (s : State), ∃ (t : State) (st : Byte) (body : List Byte), exec i s = .next t ∧
    t.responses = s.responses ++ [st :: body] ∧ st ∈ statusesOf i ∧ (st ≠ 0x00 → body = [])

/-- R155: an operation that ends with a status other than OK returns no result and writes no block state; the operations that write
state, once their packet is well formed, raise only ILLEGAL_OP. -/
def Obligations.RaisedStatusesWriteNothing : Prop :=
  (∀ (i : Instr) (s t : State) (st : Byte) (body : List Byte), exec i s = .next t →
    t.responses = s.responses ++ [st :: body] → st ≠ 0x00 → t = s.answered [st]) ∧
  (∀ (s t : State) (p : List Byte) (rest : List PortInput) (st : Byte) (body : List Byte),
    s.pending = .packet p :: rest → step s = .next t → t.responses = s.responses ++ [st :: body] → st ≠ 0x00 →
    t = State.answered { s with pending := rest } [st]) ∧
  (∀ (i : Instr) (s t : State) (st : Byte) (body : List Byte), isPure i = false → exec i s = .next t →
    t.responses = s.responses ++ [st :: body] → st = 0x00 ∨ st = 0x07)

/-- A packet that comes while the reset input is held is refused (70_reset_and_hazards.md section 1, 'a model refuses it'; that the
input is held over steps is the model's choice, log entry 6). -/
def Obligations.PacketsDuringResetAreRefused : Prop :=
  ∀ (s : State) (p : List Byte) (rest : List PortInput), s.inReset = true → s.pending = .packet p :: rest →
    step s = .refused .operationDuringReset

/-- The machine stops for two reasons only: a packet of no byte (log entry 7) and a packet during reset (log entry 6); no operation
stops. -/
def Obligations.OnlyTheNamedStopsHappen : Prop :=
  (∀ (s : State) (r : Fault), step s = .fault r →
    s.inReset = false ∧ ∃ rest, s.pending = .packet [] :: rest) ∧
  (∀ (s : State) (r : Refusal), step s = .refused r →
    r = .operationDuringReset ∧ s.inReset = true ∧ ∃ p rest, s.pending = .packet p :: rest) ∧
  (∀ (i : Instr) (s : State), ∃ t, exec i s = .next t)

/-! ## Reset -/

/-- R173: reset writes LINK_VARIANT to FRM_VARIANT and empties FRM_BUF; the configuration stays, and there is no event and no
response. -/
def Obligations.ResetInputRestoresResetValues : Prop :=
  ∀ (s : State) (rest : List PortInput), s.pending = .resetAssert :: rest →
    ∃ t, step s = .next t ∧ t.frmVariant = s.cfg.linkVariant ∧ t.frmBuf = [] ∧ t.cfg = s.cfg ∧ t.responses = s.responses

/-- R174: reset restores FRM_VARIANT and empties FRM_BUF, FRM.RESET empties FRM_BUF only, FRM.CFG sets both; all three leave the framer
IDLE. -/
def Obligations.ThreeResetsLeaveTheFramerIdle : Prop :=
  (∀ (s : State) (rest : List PortInput), s.pending = .resetAssert :: rest →
    ∃ t, step s = .next t ∧ t.frmVariant = s.cfg.linkVariant ∧ t.frmBuf = [] ∧ t.phase = .idle) ∧
  (∀ s : State, ∃ t, exec .frmReset s = .next t ∧ t.frmVariant = s.frmVariant ∧ t.frmBuf = [] ∧ t.phase = .idle) ∧
  (∀ s : State, ∃ t, exec (.frmCfg 0x00) s = .next t ∧ t.frmVariant = .instr ∧ t.frmBuf = [] ∧ t.phase = .idle) ∧
  (∀ s : State, ∃ t, exec (.frmCfg 0x01) s = .next t ∧ t.frmVariant = .plate ∧ t.frmBuf = [] ∧ t.phase = .idle)

/-- After a reset the first FRM.FEED hunts for the head of LINK_VARIANT: fed noise and then a frame of that variant, it finds exactly
that frame, whatever the framer held before (10_state.md section 6, the spec's inference; the reset input is the model's, log entry
6). -/
def Obligations.AfterResetTheFramerHunts : Prop :=
  ∀ (s : State) (rest : List PortInput) (noise : List Byte) (a c : Byte) (p : List Byte),
    headOf s.cfg.linkVariant ∉ noise → p.length ≤ maxField s.cfg.linkVariant → 6 + p.length ≤ s.cfg.maxFrame →
    noise.length + 6 + p.length ≤ 65535 →
    s.pending = .resetAssert :: .resetRelease ::
      .packet (encode (.frmFeed (noise ++ rxFrame s.cfg.linkVariant a c p (rxCk s.cfg s.cfg.linkVariant a c p)
        (tailOf s.cfg s.cfg.linkVariant)))) :: rest →
    Sys2Proof.core.run 3 s = .next
      { s with frmVariant := s.cfg.linkVariant, frmBuf := [], inReset := false, pending := rest,
               responses := s.responses ++ [feedResponse [.frame (rxFrame s.cfg.linkVariant a c p
                 (rxCk s.cfg s.cfg.linkVariant a c p) (tailOf s.cfg s.cfg.linkVariant))]] }

/-! ## The assembler and the Byte Cursor -/

/-- R73: ENC.P.SOCK is PADDR and then ENC.P at the address PADDR answers, and PADDR alone when that fails; FRM.FEED1 feeds one byte;
CK.SUMALL sums the whole sequence. -/
def Obligations.PseudoOperationsExpand : Prop :=
  (∀ (i c : Byte) (p : List Byte) (s : State),
    (∃ a, exec (.pAddr i) s = .next (s.answered [0x00, a]) ∧
      (PseudoOp.encPSock i c p).expand = [.pAddr i, .encP a c p]) ∨
    (∃ st, st ≠ 0x00 ∧ exec (.pAddr i) s = .next (s.answered [st]) ∧ (PseudoOp.encPSock i c p).expand = [.pAddr i])) ∧
  (∀ b : Byte, (PseudoOp.frmFeed1 b).expand = [.frmFeed [b]]) ∧
  (∀ (b : List Byte) (s : State), b.length ≤ 65535 → ∃ n : U16, n.toNat = b.length ∧
    (PseudoOp.ckSumAll b).expand = [.ckSum b 0 n] ∧
    exec (.ckSum b 0 n) s = .next (s.answered [0x00, .ofNat 8 (b.map BitVec.toNat).sum]))

/-- R76 to R80, and how a cursor starts: the Byte Cursor's primitives. Reads past the end fail and give no bytes; the rest advance as the rules say. -/
def Obligations.CursorPrimitivesRule : Prop :=
  (Cursor.newAssembly = ⟨[], 0, .assembly⟩ ∧ ∀ f : List Byte, Cursor.newParse f = ⟨f, 0, .parse⟩) ∧
  (∀ (buf : List Byte) (rd : Nat) (b : Byte),
    (Cursor.mk buf rd .assembly).put b = .ok ⟨buf ++ [b], rd, .assembly⟩) ∧
  (∀ (buf : List Byte) (rd : Nat) (b : List Byte),
    (Cursor.mk buf rd .assembly).putN b = .ok ⟨buf ++ b, rd, .assembly⟩) ∧
  (∀ (buf : List Byte) (rd : Nat),
    (∀ b, buf[rd]? = some b → (Cursor.mk buf rd .parse).get = .ok (b, ⟨buf, rd + 1, .parse⟩)) ∧
    (buf.length ≤ rd → (Cursor.mk buf rd .parse).get = .error .outOfRange)) ∧
  (∀ (buf : List Byte) (rd n : Nat),
    (rd + n ≤ buf.length → (Cursor.mk buf rd .parse).getN n = .ok ((buf.drop rd).take n, ⟨buf, rd + n, .parse⟩)) ∧
    (buf.length < rd + n → (Cursor.mk buf rd .parse).getN n = .error .outOfRange)) ∧
  (∀ (buf : List Byte) (rd : Nat) (m : CursorMode), (Cursor.mk buf rd m).bytes = buf)

/-- A cursor primitive of the other mode is refused inside a codec operation (the model's choice where 40_cursor.md says 'a model may
leave the mixed case undefined (refuse it)', log entry 8), and no operation ever reaches that. -/
def Obligations.MixedCursorUseIsRefused : Prop :=
  (∀ (buf : List Byte) (rd : Nat) (b : Byte) (bs : List Byte),
    codec ((Cursor.mk buf rd .parse).put b) = .error (.refuse .cursorModeMixed) ∧
    codec ((Cursor.mk buf rd .parse).putN bs) = .error (.refuse .cursorModeMixed)) ∧
  (∀ (buf : List Byte) (rd n : Nat),
    codec (Cursor.mk buf rd .assembly).get = .error (.refuse .cursorModeMixed) ∧
    codec ((Cursor.mk buf rd .assembly).getN n) = .error (.refuse .cursorModeMixed)) ∧
  (∀ (i : Instr) (s : State), exec i s ≠ .refused .cursorModeMixed)

/-! ## The checksum operations -/

/-- R88: CK.SUM answers the sum of the n bytes from offset s, mod 256, and OUT_OF_RANGE when the range, computed without wrap, passes
the end. -/
def Obligations.CkSumRule : Prop :=
  PortRule .ckSum 0x10 ∧
  ∀ (b : List Byte) (start n : U16) (s : State),
    (start.toNat + n.toNat ≤ b.length →
      exec (.ckSum b start n) s = .next (s.answered [0x00, .ofNat 8 (rangeSum b start.toNat n.toNat)])) ∧
    (b.length < start.toNat + n.toNat → exec (.ckSum b start n) s = .next (s.answered [0x05]))

/-- R90: CK.SUMEND answers the sum from offset s to the end, and OUT_OF_RANGE when s is past the end. -/
def Obligations.CkSumEndRule : Prop :=
  PortRule .ckSumEnd 0x11 ∧
  ∀ (b : List Byte) (start : U16) (s : State),
    (start.toNat ≤ b.length →
      exec (.ckSumEnd b start) s =
        .next (s.answered [0x00, .ofNat 8 (rangeSum b start.toNat (b.length - start.toNat))])) ∧
    (b.length < start.toNat → exec (.ckSumEnd b start) s = .next (s.answered [0x05]))

/-- R92: CK.SUMRNG answers the sum of `[s, e)`, and OUT_OF_RANGE for a reversed range or one past the end. -/
def Obligations.CkSumRngRule : Prop :=
  PortRule .ckSumRng 0x12 ∧
  ∀ (b : List Byte) (start stop : U16) (s : State),
    (start.toNat ≤ stop.toNat → stop.toNat ≤ b.length →
      exec (.ckSumRng b start stop) s =
        .next (s.answered [0x00, .ofNat 8 (rangeSum b start.toNat (stop.toNat - start.toNat))])) ∧
    (stop.toNat < start.toNat ∨ b.length < stop.toNat →
      exec (.ckSumRng b start stop) s = .next (s.answered [0x05]))

/-- R94: CK.VERIFY answers OK with 0x01 or 0x00 as the checksum predicate holds or fails, for INSTR from INSTR_CK_START and for PLATE
from offset 0, and ILLEGAL_OP for a reserved variant. -/
def Obligations.CkVerifyRule : Prop :=
  PortRule .ckVerify 0x13 ∧
  (∀ (f : List Byte) (s : State),
    (ckHolds s.cfg.instrCkStart.offset f → exec (.ckVerify 0x00 f) s = .next (s.answered [0x00, 0x01])) ∧
    (¬ckHolds s.cfg.instrCkStart.offset f → exec (.ckVerify 0x00 f) s = .next (s.answered [0x00, 0x00])) ∧
    (ckHolds 0 f → exec (.ckVerify 0x01 f) s = .next (s.answered [0x00, 0x01])) ∧
    (¬ckHolds 0 f → exec (.ckVerify 0x01 f) s = .next (s.answered [0x00, 0x00]))) ∧
  (∀ (v : Byte) (f : List Byte) (s : State), 1 < v.toNat → exec (.ckVerify v f) s = .next (s.answered [0x07]))

/-- What the sum detects (41_checksum.md section 1, the spec's inference 'Detection properties of `Sum8`'): any change of one byte in
the range; not every change of two; no reordering; no inserted 0x00. -/
def Obligations.ChecksumDetectsOneByte : Prop :=
  (∀ (b : List Byte) (start n k : Nat) (x : Byte), start + n ≤ b.length → start ≤ k → k < start + n → b[k]? ≠ some x →
    sum8 (b.set k x) start n ≠ sum8 b start n) ∧
  (∀ (pre post : List Byte) (x y : Byte), x.toNat < 255 → 0 < y.toNat →
    sum8 (pre ++ [x + 1, y - 1] ++ post) pre.length 2 = sum8 (pre ++ [x, y] ++ post) pre.length 2) ∧
  (∀ (pre mid mid' post : List Byte), mid.Perm mid' →
    sum8 (pre ++ mid ++ post) pre.length mid.length = sum8 (pre ++ mid' ++ post) pre.length mid'.length) ∧
  (∀ (pre u v post : List Byte),
    sum8 (pre ++ (u ++ 0x00 :: v) ++ post) pre.length (u.length + v.length + 1) =
      sum8 (pre ++ (u ++ v) ++ post) pre.length (u.length + v.length))

/-- Every frame the encoders answer verifies, for either INSTR_CK_START (41_checksum.md section 3, 'For all frames produced by encode,
verifyChecksum(frame) == true'). -/
def Obligations.EncodedFramesVerify : Prop :=
  (∀ (a c : Byte) (p : List Byte) (s : State), p.length ≤ 249 →
    ∃ f, exec (.encI a c p) s = .next (s.answered (0x00 :: seqBytes f)) ∧
      exec (.ckVerify 0x00 f) s = .next (s.answered [0x00, 0x01])) ∧
  (∀ (a c : Byte) (p : List Byte) (s : State), p.length ≤ 255 →
    ∃ f, exec (.encP a c p) s = .next (s.answered (0x00 :: seqBytes f)) ∧
      exec (.ckVerify 0x01 f) s = .next (s.answered [0x00, 0x01]))

/-- Changing one covered byte, or the checksum byte, of a frame that verifies makes it fail; changing a byte outside leaves the verdict
(41_checksum.md section 3, the spec's inference 'Checksum sensitivity'). -/
def Obligations.VerifySensitivity : Prop :=
  ∀ (v : Byte) (w : Variant) (f : List Byte) (k : Nat) (x : Byte) (s : State), variantOfByte v = some w →
    f[k]? ≠ some x → k < f.length →
    (ckStart s.cfg w ≤ k → k ≤ f.length - 2 → exec (.ckVerify v f) s = .next (s.answered [0x00, 0x01]) →
      exec (.ckVerify v (f.set k x)) s = .next (s.answered [0x00, 0x00])) ∧
    (k < ckStart s.cfg w ∨ f.length - 2 < k → 6 ≤ f.length →
      exec (.ckVerify v (f.set k x)) s = exec (.ckVerify v f) s)

/-! ## The Instrument codec -/

/-- R99: ENC.I answers the frame, head to tail, with TOTAL_LENGTH 6 + N and the checksum from INSTR_CK_START, for a payload of up to 249
bytes, and ENC_LENGTH for a longer one. -/
def Obligations.EncIRule : Prop :=
  PortRule .encI 0x20 ∧
  ∀ (a c : Byte) (p : List Byte) (s : State),
    (p.length ≤ 249 →
      exec (.encI a c p) s =
        .next (s.answered (0x00 :: seqBytes (instrFrame a c p (instrCk s.cfg.instrCkStart a c p) 0x7D)))) ∧
    (249 < p.length → exec (.encI a c p) s = .next (s.answered [0x06]))

/-- DEC.I, check by check in the order of R165: head, length byte, declared length, payload shape (either of two errors, R105),
checksum, tail; and the fields with their interpretation when all pass. -/
def Obligations.DecIAnswersInTheOrderOfItsChecks : Prop :=
  PortRule .decI 0x21 ∧
  ∀ (pcc : Byte) (s : State),
    (∀ f : List Byte, f.head? ≠ some 0x7B → exec (.decI pcc f) s = .next (s.answered [0x01])) ∧
    exec (.decI pcc [0x7B]) s = .next (s.answered [0x01]) ∧
    (∀ (l : Byte) (tl : List Byte), l.toNat ≠ tl.length + 2 ∨ l.toNat < 6 →
      exec (.decI pcc (0x7B :: l :: tl)) s = .next (s.answered [0x01])) ∧
    (∀ (a c : Byte) (p : List Byte) (k t : Byte), p.length ≤ 249 → ¬LayoutFits s.cfg pcc p.length →
      exec (.decI pcc (instrFrame a c p k t)) s = .next (s.answered [0x01]) ∨
      exec (.decI pcc (instrFrame a c p k t)) s = .next (s.answered [0x02])) ∧
    (∀ (a c : Byte) (p : List Byte) (k t : Byte), p.length ≤ 249 → LayoutFits s.cfg pcc p.length →
      k ≠ instrCk s.cfg.instrCkStart a c p →
      exec (.decI pcc (instrFrame a c p k t)) s = .next (s.answered [0x02])) ∧
    (∀ (a c : Byte) (p : List Byte) (t : Byte), p.length ≤ 249 → LayoutFits s.cfg pcc p.length → t ≠ 0x7D →
      exec (.decI pcc (instrFrame a c p (instrCk s.cfg.instrCkStart a c p) t)) s = .next (s.answered [0x01])) ∧
    (∀ (a c : Byte) (p : List Byte), p.length ≤ 249 → LayoutFits s.cfg pcc p.length →
      exec (.decI pcc (instrFrame a c p (instrCk s.cfg.instrCkStart a c p) 0x7D)) s =
        .next (s.answered ([0x00, a, c] ++ seqBytes p ++ instrValueBytes s.cfg pcc p)))

/-- DEC.I answers OK to nothing but a frame as R60 draws it, with the right checksum and a payload that fits the layout. -/
def Obligations.DecIAcceptsOnlyFrames : Prop :=
  ∀ (pcc : Byte) (f : List Byte) (s t : State) (body : List Byte), exec (.decI pcc f) s = .next t →
    t.responses = s.responses ++ [0x00 :: body] →
    ∃ (a c : Byte) (p : List Byte), p.length ≤ 249 ∧ LayoutFits s.cfg pcc p.length ∧
      f = instrFrame a c p (instrCk s.cfg.instrCkStart a c p) 0x7D

/-- The Instrument round trip (42_codec_instrument.md section 5, the spec's inference `decode(encode(x)) == x`): DEC.I of ENC.I's frame
gives back address, control code and payload, under every pending code whose layout is none or fits. -/
def Obligations.InstrumentRoundTrip : Prop :=
  ∀ (a c pcc : Byte) (p : List Byte) (s : State), p.length ≤ 249 → LayoutFits s.cfg pcc p.length →
    ∃ (f : List Byte) (val : List Byte), exec (.encI a c p) s = .next (s.answered (0x00 :: seqBytes f)) ∧
      exec (.decI pcc f) s = .next (s.answered ([0x00, a, c] ++ seqBytes p ++ val))

/-- A frame of ENC.I without its last byte answers FRAME_ERROR; without its first byte it is never OK (42_codec_instrument.md section 5,
the spec's inference 'Removing the *first* byte instead gives ...'; 90_conflicts.md C10). -/
def Obligations.InstrumentTruncation : Prop :=
  ∀ (a c pcc : Byte) (p : List Byte) (s : State), p.length ≤ 249 →
    ∃ f, exec (.encI a c p) s = .next (s.answered (0x00 :: seqBytes f)) ∧
      exec (.decI pcc f.dropLast) s = .next (s.answered [0x01]) ∧
      (exec (.decI pcc (f.drop 1)) s = .next (s.answered [0x01]) ∨
       exec (.decI pcc (f.drop 1)) s = .next (s.answered [0x02]))

/-- Changing exactly one payload byte of a frame of ENC.I gives CHECKSUM_ERROR from DEC.I (42_codec_instrument.md section 5, the spec's
inference 'changing exactly one payload byte of F gives CHECKSUM_ERROR'). -/
def Obligations.InstrumentSensitivity : Prop :=
  ∀ (a c pcc : Byte) (p : List Byte) (j : Nat) (x : Byte) (s : State), p.length ≤ 249 → LayoutFits s.cfg pcc p.length →
    j < p.length → p[j]? ≠ some x →
    ∃ f, exec (.encI a c p) s = .next (s.answered (0x00 :: seqBytes f)) ∧
      exec (.decI pcc (f.set (4 + j) x)) s = .next (s.answered [0x02])

/-- Two instances that differ in INSTR_CK_START never agree: a frame one encodes fails the other's checksum, in CK.VERIFY and in DEC.I
(70_reset_and_hazards.md section 3, 'they never agree'). -/
def Obligations.ChecksumStartsNeverAgree : Prop :=
  ∀ (a c pcc : Byte) (p : List Byte) (s t : State), p.length ≤ 249 → s.cfg.instrCkStart ≠ t.cfg.instrCkStart →
    LayoutFits t.cfg pcc p.length →
    ∃ f, exec (.encI a c p) s = .next (s.answered (0x00 :: seqBytes f)) ∧
      exec (.ckVerify 0x00 f) t = .next (t.answered [0x00, 0x00]) ∧
      exec (.decI pcc f) t = .next (t.answered [0x02])

/-! ## The Plate codec -/

/-- R116: PADDR answers index + 0x80 for an index up to 0x7F, and OUT_OF_RANGE above. -/
def Obligations.PAddrRule : Prop :=
  PortRule .pAddr 0x30 ∧
  ∀ (i : Byte) (s : State),
    (i.toNat ≤ 0x7F → exec (.pAddr i) s = .next (s.answered [0x00, .ofNat 8 (i.toNat + 0x80)])) ∧
    (0x80 ≤ i.toNat → exec (.pAddr i) s = .next (s.answered [0x05]))

/-- R119: ENC.P answers the outbound frame, with the checksum over head to parameters, for up to 255 parameter bytes, and ENC_LENGTH for
more. -/
def Obligations.EncPRule : Prop :=
  PortRule .encP 0x31 ∧
  ∀ (a c : Byte) (p : List Byte) (s : State),
    (p.length ≤ 255 →
      exec (.encP a c p) s = .next (s.answered (0x00 :: seqBytes (plateFrame 0x4E a c p (plateCk 0x4E a c p) 0x45)))) ∧
    (255 < p.length → exec (.encP a c p) s = .next (s.answered [0x06]))

/-- R124, R128: DEC.P, check by check in the order of R166: head, address byte, address at least 0x80, control code and length, length,
checksum, tail, then the measurement interpretation by the received control code. -/
def Obligations.DecPRule : Prop :=
  PortRule .decP 0x32 ∧
  ∀ s : State,
    (∀ f : List Byte, f.head? ≠ some 0x4F → exec (.decP f) s = .next (s.answered [0x01])) ∧
    exec (.decP [0x4F]) s = .next (s.answered [0x01]) ∧
    (∀ (a : Byte) (tl : List Byte), a.toNat < 0x80 → exec (.decP (0x4F :: a :: tl)) s = .next (s.answered [0x01])) ∧
    (∀ (a : Byte) (tl : List Byte), tl.length < 2 → exec (.decP (0x4F :: a :: tl)) s = .next (s.answered [0x01])) ∧
    (∀ (a c n : Byte) (tl : List Byte), n.toNat + 6 ≠ tl.length + 4 →
      exec (.decP (0x4F :: a :: c :: n :: tl)) s = .next (s.answered [0x01])) ∧
    (∀ (a c : Byte) (p : List Byte) (k t : Byte), 0x80 ≤ a.toNat → p.length ≤ 255 → k ≠ plateCk 0x4F a c p →
      exec (.decP (plateFrame 0x4F a c p k t)) s = .next (s.answered [0x02])) ∧
    (∀ (a c : Byte) (p : List Byte) (t : Byte), 0x80 ≤ a.toNat → p.length ≤ 255 → t ≠ s.cfg.plateRxTail →
      exec (.decP (plateFrame 0x4F a c p (plateCk 0x4F a c p) t)) s = .next (s.answered [0x01])) ∧
    (∀ (a c hi lo : Byte), 0x80 ≤ a.toNat → c ∈ s.cfg.plateMeasCodes →
      exec (.decP (plateFrame 0x4F a c [hi, lo] (plateCk 0x4F a c [hi, lo]) s.cfg.plateRxTail)) s =
        .next (s.answered [0x00, a, c, 0x00, 0x02, hi, lo, 0x01, 0x01, hi, lo, 0x00, 0x64])) ∧
    (∀ (a c : Byte) (p : List Byte), 0x80 ≤ a.toNat → p.length ≤ 255 → c ∈ s.cfg.plateMeasCodes → p.length ≠ 2 →
      exec (.decP (plateFrame 0x4F a c p (plateCk 0x4F a c p) s.cfg.plateRxTail)) s = .next (s.answered [0x03])) ∧
    (∀ (a c : Byte) (p : List Byte), 0x80 ≤ a.toNat → p.length ≤ 255 → c ∉ s.cfg.plateMeasCodes →
      exec (.decP (plateFrame 0x4F a c p (plateCk 0x4F a c p) s.cfg.plateRxTail)) s =
        .next (s.answered ([0x00, a, c] ++ seqBytes p ++ [0x00])))

/-- DEC.P answers OK to nothing but an inbound frame as R63 draws it, with an address of at least 0x80, the right checksum and tail, and
the measurement shape where its code asks for it. -/
def Obligations.DecPAcceptsOnlyFrames : Prop :=
  ∀ (f : List Byte) (s t : State) (body : List Byte), exec (.decP f) s = .next t →
    t.responses = s.responses ++ [0x00 :: body] →
    ∃ (a c : Byte) (p : List Byte), 0x80 ≤ a.toNat ∧ p.length ≤ 255 ∧ (c ∈ s.cfg.plateMeasCodes → p.length = 2) ∧
      f = plateFrame 0x4F a c p (plateCk 0x4F a c p) s.cfg.plateRxTail

/-- The Plate round trip (43_codec_plate.md section 5, the spec's inference 'the inbound twin'): DEC.P never accepts ENC.P's frame, and
accepts its inbound twin (head 0x4F, checksum plus 1, tail PLATE_RX_TAIL) for an address of at least 0x80, answering its fields, or
UNKNOWN for a measurement code with another shape. -/
def Obligations.PlateRoundTrip : Prop :=
  ∀ (a c : Byte) (p : List Byte) (s : State), p.length ≤ 255 →
    ∃ f, exec (.encP a c p) s = .next (s.answered (0x00 :: seqBytes f)) ∧
      exec (.decP f) s = .next (s.answered [0x01]) ∧
      (0x80 ≤ a.toNat → ∀ k, f[f.length - 2]? = some k →
        ((c ∈ s.cfg.plateMeasCodes → p.length = 2) → ∃ val,
          exec (.decP (((f.set 0 0x4F).set (f.length - 2) (k + 1)).set (f.length - 1) s.cfg.plateRxTail)) s =
            .next (s.answered ([0x00, a, c] ++ seqBytes p ++ val))) ∧
        (c ∈ s.cfg.plateMeasCodes → p.length ≠ 2 →
          exec (.decP (((f.set 0 0x4F).set (f.length - 2) (k + 1)).set (f.length - 1) s.cfg.plateRxTail)) s =
            .next (s.answered [0x03])))

/-- For every inbound frame that DEC.P accepts: without its last byte it is FRAME_ERROR, and with exactly one parameter byte changed it
is CHECKSUM_ERROR (43_codec_plate.md section 5, the spec's inferences 'Truncation' and 'Sensitivity'). -/
def Obligations.PlateTruncationAndSensitivity : Prop :=
  ∀ (f : List Byte) (s : State) (body : List Byte), exec (.decP f) s = .next (s.answered (0x00 :: body)) →
    exec (.decP f.dropLast) s = .next (s.answered [0x01]) ∧
    ∀ (j : Nat) (x : Byte), 4 ≤ j → j < f.length - 2 → f[j]? ≠ some x →
      exec (.decP (f.set j x)) s = .next (s.answered [0x02])

/-! ## The framer -/

/-- R135: FRM.RESET empties FRM_BUF, answers OK without a result, and leaves FRM_VARIANT. -/
def Obligations.FrmResetRule : Prop :=
  PortRule .frmReset 0x40 ∧
  ∀ s : State, exec .frmReset s = .next { s with frmBuf := [], responses := s.responses ++ [[0x00]] }

/-- R137: FRM.CFG sets FRM_VARIANT and empties FRM_BUF, also when the variant is the current one; a reserved variant answers ILLEGAL_OP
and writes nothing. -/
def Obligations.FrmCfgRule : Prop :=
  PortRule .frmCfg 0x41 ∧
  (∀ s : State, exec (.frmCfg 0x00) s =
    .next { s with frmVariant := .instr, frmBuf := [], responses := s.responses ++ [[0x00]] }) ∧
  (∀ s : State, exec (.frmCfg 0x01) s =
    .next { s with frmVariant := .plate, frmBuf := [], responses := s.responses ++ [[0x00]] }) ∧
  (∀ (v : Byte) (s : State), 1 < v.toNat → exec (.frmCfg v) s = .next (s.answered [0x07]))

/-- R139, R141: FRM.FEED is the per-byte step over its chunk, each byte appended and the drain loop run, rule by rule as the spec writes
it (FeedRun, DrainRun); it always completes, and its outcome is the only one the loop allows. -/
def Obligations.FrmFeedRunsTheDrainLoop : Prop :=
  PortRule .frmFeed 0x42 ∧
  ∀ (chunk : List Byte) (s : State), ∃ (ev : List Event) (out : List Byte),
    FeedRun s.cfg s.frmVariant chunk s.frmBuf ev out ∧
    exec (.frmFeed chunk) s = .next { s with frmBuf := out, responses := s.responses ++ [feedResponse ev] } ∧
    ∀ (ev' : List Event) (out' : List Byte), FeedRun s.cfg s.frmVariant chunk s.frmBuf ev' out' → ev' = ev ∧ out' = out

/-- Chunking does not matter (44_framer.md section 4, the spec's inference): feeding two chunks one after the other finds the events of
feeding them as one, and leaves the same buffer. -/
def Obligations.ChunkingDoesNotMatter : Prop :=
  ∀ (c d : List Byte) (s : State), ∃ (ev ev' : List Event) (mid out : List Byte),
    exec (.frmFeed c) s = .next { s with frmBuf := mid, responses := s.responses ++ [feedResponse ev] } ∧
    exec (.frmFeed d) { s with frmBuf := mid, responses := s.responses ++ [feedResponse ev] } =
      .next { s with frmBuf := out, responses := s.responses ++ [feedResponse ev, feedResponse ev'] } ∧
    exec (.frmFeed (c ++ d)) s = .next { s with frmBuf := out, responses := s.responses ++ [feedResponse (ev ++ ev')] }

/-- Delivery (44_framer.md section 4, the spec's inference): from an empty buffer, noise without the receive head and then a valid frame
of at most MAX_FRAME bytes yield exactly that FRAME and leave the buffer empty, in either EARLY_REJECT mode. -/
def Obligations.ValidFrameIsDelivered : Prop :=
  ∀ (s : State) (noise : List Byte) (a c : Byte) (p : List Byte), s.frmBuf = [] → headOf s.frmVariant ∉ noise →
    p.length ≤ maxField s.frmVariant → 6 + p.length ≤ s.cfg.maxFrame →
    exec (.frmFeed (noise ++ rxFrame s.frmVariant a c p (rxCk s.cfg s.frmVariant a c p) (tailOf s.cfg s.frmVariant))) s =
      .next (s.answered (feedResponse
        [.frame (rxFrame s.frmVariant a c p (rxCk s.cfg s.frmVariant a c p) (tailOf s.cfg s.frmVariant))]))

/-- A complete candidate with a wrong checksum is emitted as CK_ERR and consumed whole, not rescanned, in either EARLY_REJECT mode
(44_framer.md section 3, R146). -/
def Obligations.BadChecksumFrameIsConsumedWhole : Prop :=
  ∀ (s : State) (a c : Byte) (p : List Byte) (k : Byte), s.frmBuf = [] → p.length ≤ maxField s.frmVariant →
    6 + p.length ≤ s.cfg.maxFrame → k ≠ rxCk s.cfg s.frmVariant a c p →
    exec (.frmFeed (rxFrame s.frmVariant a c p k (tailOf s.cfg s.frmVariant))) s =
      .next (s.answered (feedResponse [.ckErr (rxFrame s.frmVariant a c p k (tailOf s.cfg s.frmVariant))]))

/-- The events of any FRM.FEED (44_framer.md sections 2 to 4). A FRAME is a run of the bytes held and fed that is a whole valid frame of
at most MAX_FRAME bytes; a CK_ERR is such a run with the wrong checksum. A FRAME_ERR names the cause for which a candidate among
these bytes is rejected: with EARLY_REJECT, BAD_LENGTH a declared length below 6 (so never for PLATE), OVERSIZE one above MAX_FRAME,
BAD_TAIL a wrong byte where the length puts the tail; without it, OVERSIZE only, for a candidate held past MAX_FRAME. Events and
bytes left are together at most as many as the bytes fed and held (the spec's inference, section 4, 'every event removes at least
one byte'). -/
def Obligations.FeedEventsAreSound : Prop :=
  ∀ (chunk : List Byte) (s : State), ∃ (ev : List Event) (out : List Byte), FeedAnswers s chunk ev out ∧
    (∀ f, .frame f ∈ ev → f <:+: s.frmBuf ++ chunk ∧ ∃ (a c : Byte) (p : List Byte), p.length ≤ maxField s.frmVariant ∧
      f.length ≤ s.cfg.maxFrame ∧ f = rxFrame s.frmVariant a c p (rxCk s.cfg s.frmVariant a c p) (tailOf s.cfg s.frmVariant)) ∧
    (∀ f, .ckErr f ∈ ev → f <:+: s.frmBuf ++ chunk ∧ ∃ (a c : Byte) (p : List Byte) (k : Byte),
      p.length ≤ maxField s.frmVariant ∧ f.length ≤ s.cfg.maxFrame ∧ k ≠ rxCk s.cfg s.frmVariant a c p ∧
      f = rxFrame s.frmVariant a c p k (tailOf s.cfg s.frmVariant)) ∧
    (∀ r, .frameErr r ∈ ev →
      (∃ cand, cand <:+: s.frmBuf ++ chunk ∧ RejectedFor s.cfg s.frmVariant cand r) ∧
      (s.frmVariant = .plate → r ≠ .badLength)) ∧
    ev.length + out.length ≤ chunk.length + s.frmBuf.length

/-- Bytes without the receive head, fed to an idle framer, are discarded without an event (44_framer.md section 3, 'Discarded bytes
produce no event'). -/
def Obligations.NoiseMakesNoEvent : Prop :=
  ∀ (s : State) (noise : List Byte), s.frmBuf = [] → headOf s.frmVariant ∉ noise →
    exec (.frmFeed noise) s = .next (s.answered [0x00, 0x00, 0x00, 0x00, 0x00])

/-- With EARLY_REJECT true an illegal declared length is rejected as soon as the header is complete (44_framer.md section 3): BAD_LENGTH
below 6, OVERSIZE above MAX_FRAME. The head byte alone is dropped: whatever stands behind it, and whatever follows, gives the events
and the buffer that it gives when fed to an empty framer. With a head byte behind the rejected one, as in [7B 7B] with a MAX_FRAME
below 123, that byte is kept as the next candidate; with none, nothing is left. -/
def Obligations.IllegalLengthIsRejectedAtOnce : Prop :=
  ∀ (s : State) (rest : List Byte), s.frmBuf = [] → s.cfg.earlyReject = true →
    (s.frmVariant = .instr → ∀ l : Byte, l.toNat < 6 →
      FeedAnswers s [0x7B, l] [.frameErr .badLength] [] ∧
      ∃ ev out, FeedAnswers s (l :: rest) ev out ∧ FeedAnswers s (0x7B :: l :: rest) (.frameErr .badLength :: ev) out) ∧
    (s.frmVariant = .instr → ∀ l : Byte, 6 ≤ l.toNat → s.cfg.maxFrame < l.toNat →
      (l ≠ 0x7B → FeedAnswers s [0x7B, l] [.frameErr .oversize] []) ∧
      (l = 0x7B → FeedAnswers s [0x7B, l] [.frameErr .oversize] [0x7B]) ∧
      ∃ ev out, FeedAnswers s (l :: rest) ev out ∧ FeedAnswers s (0x7B :: l :: rest) (.frameErr .oversize :: ev) out) ∧
    (s.frmVariant = .plate → ∀ a c n : Byte, s.cfg.maxFrame < n.toNat + 6 →
      ((0x4F : Byte) ∉ [a, c, n] → FeedAnswers s [0x4F, a, c, n] [.frameErr .oversize] []) ∧
      (a = 0x4F → FeedAnswers s [0x4F, a, c, n] [.frameErr .oversize] [0x4F, c, n]) ∧
      ∃ ev out, FeedAnswers s (a :: c :: n :: rest) ev out ∧
        FeedAnswers s (0x4F :: a :: c :: n :: rest) (.frameErr .oversize :: ev) out)

/-- With EARLY_REJECT true a candidate with a wrong tail, whatever bytes it holds, is rejected with BAD_TAIL and loses its head byte only
(R143, R144): the bytes behind the head, and whatever follows them, give the events and the buffer that they give when fed to an
empty framer. So a frame that starts inside the candidate is found, and so is one that follows a candidate with no head byte in it. -/
def Obligations.WrongTailIsRejectedAndRescanned : Prop :=
  ∀ (s : State) (a c : Byte) (p : List Byte) (k t : Byte), s.frmBuf = [] → s.cfg.earlyReject = true →
    p.length ≤ maxField s.frmVariant → 6 + p.length ≤ s.cfg.maxFrame → t ≠ tailOf s.cfg s.frmVariant →
    (∀ rest : List Byte, ∃ ev out, FeedAnswers s ((rxFrame s.frmVariant a c p k t).drop 1 ++ rest) ev out ∧
      FeedAnswers s (rxFrame s.frmVariant a c p k t ++ rest) (.frameErr .badTail :: ev) out) ∧
    (∀ (pre : List Byte) (a' c' : Byte) (p' rest' : List Byte), headOf s.frmVariant ∉ pre →
      p'.length ≤ maxField s.frmVariant → 6 + p'.length ≤ s.cfg.maxFrame →
      ∀ rest : List Byte, (rxFrame s.frmVariant a c p k t).drop 1 ++ rest =
        pre ++ rxFrame s.frmVariant a' c' p' (rxCk s.cfg s.frmVariant a' c' p') (tailOf s.cfg s.frmVariant) ++ rest' →
      ∃ ev out, FeedAnswers s rest' ev out ∧
        FeedAnswers s (rxFrame s.frmVariant a c p k t ++ rest) (.frameErr .badTail ::
          .frame (rxFrame s.frmVariant a' c' p' (rxCk s.cfg s.frmVariant a' c' p') (tailOf s.cfg s.frmVariant)) :: ev) out)

/-- With EARLY_REJECT false an impossible candidate (a length below 6 or above MAX_FRAME, or a wrong tail) of either variant holds the buffer
up to MAX_FRAME bytes without an event; the byte after that rejects it with OVERSIZE, the head byte alone is dropped, and the bytes
behind it give the events and the buffer that they give when fed to an empty framer (44_framer.md section 3). -/
def Obligations.LiteralModeHoldsTheCandidate : Prop :=
  ∀ (s : State) (buf : List Byte), s.frmBuf = [] → s.cfg.earlyReject = false → buf.head? = some (headOf s.frmVariant) →
    ImpossibleCandidate s.cfg s.frmVariant buf →
    (buf.length ≤ s.cfg.maxFrame → FeedAnswers s buf [] buf) ∧
    (buf.length = s.cfg.maxFrame + 1 →
      (headOf s.frmVariant ∉ buf.drop 1 → FeedAnswers s buf [.frameErr .oversize] []) ∧
      ∃ ev out, FeedAnswers s (buf.drop 1) ev out ∧ FeedAnswers s buf (.frameErr .oversize :: ev) out)

/-- A false head delays delivery (44_framer.md section 4, the spec's inference 'False heads delay delivery'): a stray 0x7B before a
valid Instrument frame of at most 121 bytes declares 123 bytes, so the frame stays in the buffer behind it, in either EARLY_REJECT
mode. -/
def Obligations.FalseHeadHoldsTheFrame : Prop :=
  ∀ (s : State) (a c : Byte) (p : List Byte), s.frmBuf = [] → s.frmVariant = .instr → 123 ≤ s.cfg.maxFrame →
    6 + p.length ≤ 121 →
    exec (.frmFeed (0x7B :: instrFrame a c p (instrCk s.cfg.instrCkStart a c p) 0x7D)) s =
      .next { s with frmBuf := 0x7B :: instrFrame a c p (instrCk s.cfg.instrCkStart a c p) 0x7D,
                     responses := s.responses ++ [feedResponse []] }

/-- What the framer emits, the decoders take (70_reset_and_hazards.md section 3, the spec's inference 'Frames from the framer and direct
decoding'): a FRAME given to DEC.I can fail only on the layout length, and given to DEC.P only on the address or the measurement
shape. -/
def Obligations.FramerFramesDecode : Prop :=
  ∀ (chunk : List Byte) (s : State), ∃ (ev : List Event) (out : List Byte),
    exec (.frmFeed chunk) s = .next { s with frmBuf := out, responses := s.responses ++ [feedResponse ev] } ∧
    ∀ f, .frame f ∈ ev →
      (s.frmVariant = .instr → ∀ pcc : Byte, LayoutFits s.cfg pcc (f.length - 6) →
        ∃ body, exec (.decI pcc f) s = .next (s.answered (0x00 :: body))) ∧
      (s.frmVariant = .plate → 0x80 ≤ (f.getD 1 0).toNat → (f.getD 2 0 ∈ s.cfg.plateMeasCodes → f.length = 8) →
        ∃ body, exec (.decP f) s = .next (s.answered (0x00 :: body)))

/-! ## The machine as a whole -/

/-- The invariant of FRM_BUF (10_state.md section 2, the spec's inference), under a configuration that meets R9's constraints, is kept
by every step from every state that has it. -/
def Obligations.EveryStepKeepsTheInvariant : Prop :=
  ∀ s t : State, s.inv → step s = .next t → t.inv

/-- The state after reset has the invariant, and its framer is idle (10_state.md section 6, 'After reset the framer is in phase IDLE';
the configuration's values at reset are the model's, log entries 2 and 3). -/
def Obligations.ResetMeetsTheInvariant : Prop :=
  State.reset.inv ∧ State.reset.phase = .idle

/-- 20_memory.md section 4: the nine pure operations write no state, and their response depends on their operands and the configuration
only, so issuing one twice gives the same response twice; the framer's operations write FRM_BUF, and FRM.CFG alone FRM_VARIANT;
FRM.FEED is not idempotent. -/
def Obligations.PureOperationsOnlyAnswer : Prop :=
  (∀ (i : Instr) (cfg : Config), isPure i = true → ∃ r, ∀ s : State, s.cfg = cfg → exec i s = .next (s.answered r)) ∧
  (∀ (i : Instr) (s : State), isPure i = false →
    ∃ (v : Variant) (buf r : List Byte),
      exec i s = .next { s with frmVariant := v, frmBuf := buf, responses := s.responses ++ [r] } ∧
      (i.opcode ≠ .frmCfg → v = s.frmVariant)) ∧
  (∃ (c : List Byte) (s t u : State) (r r' : List Byte), exec (.frmFeed c) s = .next t ∧ exec (.frmFeed c) t = .next u ∧
    t.responses = s.responses ++ [r] ∧ u.responses = t.responses ++ [r'] ∧ r ≠ r')

/-- 20_memory.md section 6: the order of a transmit operation and a receive operation never changes either's result, nor the state they
leave but for the order of the two responses. -/
def Obligations.TransmitAndReceiveCommute : Prop :=
  ∀ (i j : Instr) (s : State), isPure i = true → isPure j = false →
    ∃ (v : Variant) (buf r r' : List Byte),
      exec i s = .next (s.answered r) ∧
      exec j (s.answered r) = .next { s with frmVariant := v, frmBuf := buf, responses := s.responses ++ [r, r'] } ∧
      exec j s = .next { s with frmVariant := v, frmBuf := buf, responses := s.responses ++ [r'] } ∧
      exec i { s with frmVariant := v, frmBuf := buf, responses := s.responses ++ [r'] } =
        .next { s with frmVariant := v, frmBuf := buf, responses := s.responses ++ [r', r] }

/-- No step writes the configuration (10_state.md section 4, 'no operation writes them'), and none takes back a response (the model's
choice: the responses sent stand in its own field State.responses, log entry 5). -/
def Obligations.ConfigurationIsReadOnly : Prop :=
  ∀ s t : State, step s = .next t → t.cfg = s.cfg ∧ ∃ sent, t.responses = s.responses ++ sent

/-- PLATE_SYS_ADDR is given no special treatment (43_codec_plate.md section 1): whatever its value, every operation answers the same and
leaves the same state. -/
def Obligations.SystemAddressChangesNothing : Prop :=
  ∀ (i : Instr) (s : State) (x : Byte), ∃ t : State, exec i s = .next t ∧
    exec i { s with cfg := { s.cfg with plateSysAddr := x } } = .next { t with cfg := { s.cfg with plateSysAddr := x } }

/-- Who writes the framer's state (10_state.md section 2): FRM_VARIANT only FRM.CFG, with the variant it names, and reset; FRM_BUF only
the three FRM operations and reset. -/
def Obligations.WhoWritesTheFramerState : Prop :=
  ∀ s t : State, step s = .next t →
    (t.frmVariant ≠ s.frmVariant →
      (∃ rest, s.pending = .resetAssert :: rest ∧ t.frmVariant = s.cfg.linkVariant) ∨
      (∃ rest, s.pending = .packet [0x41, 0x00] :: rest ∧ t.frmVariant = .instr) ∨
      (∃ rest, s.pending = .packet [0x41, 0x01] :: rest ∧ t.frmVariant = .plate)) ∧
    (t.frmBuf ≠ s.frmBuf →
      (∃ rest, s.pending = .resetAssert :: rest) ∨
      ∃ opc bs rest, s.pending = .packet (opc :: bs) :: rest ∧ opc ∈ ([0x40, 0x41, 0x42] : List Byte))

/-- The reset input as the model has it (log entry 6, the model's choice): while it is held `inReset` is set, and the inputs not yet taken
and the responses sent stay; releasing it does nothing else. -/
def Obligations.ResetInputIsHeldUntilReleased : Prop :=
  (∀ (s : State) (rest : List PortInput), s.pending = .resetAssert :: rest →
    ∃ t, step s = .next t ∧ t.inReset = true ∧ t.pending = rest ∧ t.responses = s.responses) ∧
  (∀ (s : State) (rest : List PortInput), s.pending = .resetRelease :: rest →
    step s = .next { s with inReset := false, pending := rest })
end

