-- ==== Sys2Proof/Laws/Framer.lean ====
section
/-! SUPPORT. Lemmas about the framer's procedures: hunting, the decision of one pass, and the drain loop. -/

namespace Sys2Proof.Machine

open Sys2Proof

/-! ### Hunt -/

@[simp] theorem hunt_nil (v : Variant) : hunt v [] = [] := rfl

theorem hunt_cons_head (v : Variant) (buf : List Byte) : hunt v (rxHead v :: buf) = rxHead v :: buf := by
  simp [hunt]

theorem hunt_cons_noise {v : Variant} {b : Byte} (h : b ≠ rxHead v) (buf : List Byte) :
    hunt v (b :: buf) = hunt v buf := by
  simp [hunt, h]

/-- After hunting, the buffer is empty or starts with the receive head. -/
theorem hunt_atHead (v : Variant) (buf : List Byte) :
    hunt v buf = [] ∨ (hunt v buf).head? = some (rxHead v) := by
  induction buf with
  | nil => exact .inl rfl
  | cons b buf ih =>
    by_cases h : b = rxHead v
    · subst h; exact .inr (by simp [hunt_cons_head])
    · rw [hunt_cons_noise h]; exact ih

theorem hunt_length_le (v : Variant) (buf : List Byte) : (hunt v buf).length ≤ buf.length :=
  (List.dropWhile_suffix _).length_le

theorem hunt_of_head? {v : Variant} {buf : List Byte} (h : buf.head? = some (rxHead v)) : hunt v buf = buf := by
  cases buf with
  | nil => rfl
  | cons b buf =>
    simp only [List.head?_cons, Option.some.injEq] at h
    subst h; exact hunt_cons_head v buf

/-- A buffer without the receive head is hunted away whole. -/
theorem hunt_of_noise {v : Variant} {buf : List Byte} (h : rxHead v ∉ buf) : hunt v buf = [] := by
  induction buf with
  | nil => rfl
  | cons b buf ih =>
    simp only [List.mem_cons, not_or] at h
    rw [hunt_cons_noise (fun hb => h.1 hb.symm), ih h.2]

/-! ### One pass -/

/-- What the decision of a pass tells about the buffer: all that a pass can do. -/
theorem judge_cases (cfg : Config) (v : Variant) (buf : List Byte) :
    (judge cfg v buf = .wait ∧
      (buf.length < hdrLen v ∨
        (hdrLen v ≤ buf.length ∧ cfg.earlyReject = true ∧ 6 ≤ declLen v buf ∧ declLen v buf ≤ cfg.maxFrame ∧
          buf.length < declLen v buf) ∨
        (hdrLen v ≤ buf.length ∧ cfg.earlyReject = false ∧ buf.length ≤ cfg.maxFrame ∧
          ¬(6 ≤ declLen v buf ∧ declLen v buf ≤ cfg.maxFrame ∧ declLen v buf ≤ buf.length ∧
            buf[declLen v buf - 1]? = some (rxTail cfg v))))) ∨
    (judge cfg v buf = .reject .badLength ∧ hdrLen v ≤ buf.length ∧ cfg.earlyReject = true ∧ declLen v buf < 6) ∨
    (judge cfg v buf = .reject .oversize ∧ hdrLen v ≤ buf.length ∧ cfg.earlyReject = true ∧
      6 ≤ declLen v buf ∧ cfg.maxFrame < declLen v buf) ∨
    (judge cfg v buf = .reject .badTail ∧ hdrLen v ≤ buf.length ∧ cfg.earlyReject = true ∧
      6 ≤ declLen v buf ∧ declLen v buf ≤ cfg.maxFrame ∧ declLen v buf ≤ buf.length ∧
      buf[declLen v buf - 1]? ≠ some (rxTail cfg v)) ∨
    (judge cfg v buf = .reject .oversize ∧ hdrLen v ≤ buf.length ∧ cfg.earlyReject = false ∧
      cfg.maxFrame < buf.length ∧
      ¬(6 ≤ declLen v buf ∧ declLen v buf ≤ cfg.maxFrame ∧ declLen v buf ≤ buf.length ∧
        buf[declLen v buf - 1]? = some (rxTail cfg v))) ∨
    (judge cfg v buf = .complete (declLen v buf) ∧ hdrLen v ≤ buf.length ∧
      6 ≤ declLen v buf ∧ declLen v buf ≤ cfg.maxFrame ∧ declLen v buf ≤ buf.length ∧
      buf[declLen v buf - 1]? = some (rxTail cfg v)) := by
  by_cases hh : buf.length < hdrLen v
  · exact .inl ⟨by simp [judge, hh], .inl hh⟩
  · have hh' : hdrLen v ≤ buf.length := Nat.le_of_not_lt hh
    cases he : cfg.earlyReject with
    | true =>
      by_cases h6 : declLen v buf < 6
      · exact .inr (.inl ⟨by simp [judge, hh, he, judgeEarly, fixedBytes, h6], hh', rfl, h6⟩)
      · by_cases hm : cfg.maxFrame < declLen v buf
        · exact .inr (.inr (.inl
            ⟨by simp [judge, hh, he, judgeEarly, fixedBytes, h6, hm], hh', rfl, by omega, hm⟩))
        · by_cases hl : buf.length < declLen v buf
          · exact .inl ⟨by simp [judge, hh, he, judgeEarly, fixedBytes, h6, hm, hl],
              .inr (.inl ⟨hh', rfl, by omega, by omega, hl⟩)⟩
          · by_cases ht : buf[declLen v buf - 1]? = some (rxTail cfg v)
            · exact .inr (.inr (.inr (.inr (.inr
                ⟨by simp [judge, hh, he, judgeEarly, fixedBytes, h6, hm, hl, ht], hh', by omega, by omega, by omega, ht⟩))))
            · exact .inr (.inr (.inr (.inl
                ⟨by simp [judge, hh, he, judgeEarly, fixedBytes, h6, hm, hl, ht], hh', rfl, by omega, by omega,
                  by omega, ht⟩)))
    | false =>
      by_cases hc : 6 ≤ declLen v buf ∧ declLen v buf ≤ cfg.maxFrame ∧ declLen v buf ≤ buf.length ∧
          buf[declLen v buf - 1]? = some (rxTail cfg v)
      · exact .inr (.inr (.inr (.inr (.inr ⟨by simp [judge, hh, he, judgeLiteral, fixedBytes, hc], hh', hc⟩))))
      · by_cases hm : cfg.maxFrame < buf.length
        · exact .inr (.inr (.inr (.inr (.inl
            ⟨by simp only [judge, hh, he, judgeLiteral, fixedBytes, hc, hm, if_false, if_true, Bool.false_eq_true],
              hh', rfl, hm, hc⟩))))
        · exact .inl
            ⟨by simp only [judge, hh, he, judgeLiteral, fixedBytes, hc, hm, if_false, Bool.false_eq_true],
              .inr (.inr ⟨hh', rfl, by omega, hc⟩)⟩

/-- A pass that completes a candidate takes a positive number of bytes that are there. -/
theorem judge_complete {cfg : Config} {v : Variant} {buf : List Byte} {len : Nat}
    (h : judge cfg v buf = .complete len) :
    len = declLen v buf ∧ hdrLen v ≤ buf.length ∧ 6 ≤ len ∧ len ≤ cfg.maxFrame ∧ len ≤ buf.length ∧
      buf[len - 1]? = some (rxTail cfg v) := by
  rcases judge_cases cfg v buf with h' | h' | h' | h' | h' | h' <;> rw [h'.1] at h
  · cases h
  · cases h
  · cases h
  · cases h
  · cases h
  · cases h; exact ⟨rfl, h'.2⟩

/-- A pass that rejects a candidate has a head byte to drop. -/
theorem judge_reject_length {cfg : Config} {v : Variant} {buf : List Byte} {r : FrameErrReason}
    (h : judge cfg v buf = .reject r) : 0 < buf.length := by
  have hp : 0 < hdrLen v := by cases v <;> decide
  rcases judge_cases cfg v buf with h' | h' | h' | h' | h' | h' <;> rw [h'.1] at h
  · cases h
  · exact Nat.lt_of_lt_of_le hp h'.2.1
  · exact Nat.lt_of_lt_of_le hp h'.2.1
  · exact Nat.lt_of_lt_of_le hp h'.2.1
  · exact Nat.lt_of_lt_of_le hp h'.2.1
  · cases h

/-! ### The drain loop -/

/-- One pass of the loop. -/
theorem drainLoop_succ (cfg : Config) (v : Variant) (fuel : Nat) (buf : List Byte) :
    drainLoop cfg v (fuel + 1) buf =
      match judge cfg v (hunt v buf) with
      | .wait => ([], hunt v buf)
      | .reject r =>
        (.frameErr r :: (drainLoop cfg v fuel ((hunt v buf).drop 1)).1, (drainLoop cfg v fuel ((hunt v buf).drop 1)).2)
      | .complete len =>
        (classify cfg v ((hunt v buf).take len) :: (drainLoop cfg v fuel ((hunt v buf).drop len)).1,
          (drainLoop cfg v fuel ((hunt v buf).drop len)).2) := rfl

/-- Any bound above the buffer's length gives the same outcome: the bound is never used up. -/
theorem drainLoop_fuel (cfg : Config) (v : Variant) :
    ∀ (n m : Nat) (buf : List Byte), buf.length < n → buf.length < m →
      drainLoop cfg v n buf = drainLoop cfg v m buf := by
  intro n
  induction n with
  | zero => intro m buf h; omega
  | succ n ih =>
    intro m buf hn hm
    cases m with
    | zero => omega
    | succ m =>
      have hl := hunt_length_le v buf
      rw [drainLoop_succ, drainLoop_succ]
      cases hj : judge cfg v (hunt v buf) with
      | wait => rfl
      | reject r =>
        have hpos := judge_reject_length hj
        have hd : ((hunt v buf).drop 1).length = (hunt v buf).length - 1 := List.length_drop ..
        dsimp only
        rw [ih m ((hunt v buf).drop 1) (by omega) (by omega)]
      | complete len =>
        obtain ⟨-, -, h6, -, hle, -⟩ := judge_complete hj
        have hd : ((hunt v buf).drop len).length = (hunt v buf).length - len := List.length_drop ..
        dsimp only
        rw [ih m ((hunt v buf).drop len) (by omega) (by omega)]

/-- `Drain()` as the spec's loop: one pass, then `Drain()` again on what is left. -/
theorem drain_eq (cfg : Config) (v : Variant) (buf : List Byte) :
    drain cfg v buf =
      match judge cfg v (hunt v buf) with
      | .wait => ([], hunt v buf)
      | .reject r =>
        (.frameErr r :: (drain cfg v ((hunt v buf).drop 1)).1, (drain cfg v ((hunt v buf).drop 1)).2)
      | .complete len =>
        (classify cfg v ((hunt v buf).take len) :: (drain cfg v ((hunt v buf).drop len)).1,
          (drain cfg v ((hunt v buf).drop len)).2) := by
  have hl := hunt_length_le v buf
  unfold drain
  rw [drainLoop_succ]
  cases hj : judge cfg v (hunt v buf) with
  | wait => rfl
  | reject r =>
    have hpos := judge_reject_length hj
    have hd : ((hunt v buf).drop 1).length = (hunt v buf).length - 1 := List.length_drop ..
    dsimp only
    rw [drainLoop_fuel cfg v buf.length (((hunt v buf).drop 1).length + 1) ((hunt v buf).drop 1) (by omega) (by omega)]
  | complete len =>
    obtain ⟨-, -, h6, -, hle, -⟩ := judge_complete hj
    have hd : ((hunt v buf).drop len).length = (hunt v buf).length - len := List.length_drop ..
    dsimp only
    rw [drainLoop_fuel cfg v buf.length (((hunt v buf).drop len).length + 1) ((hunt v buf).drop len) (by omega) (by omega)]

/-- Induction over the passes of `Drain()`: what holds of a buffer that waits, and is carried back over a rejected and over a
completed candidate, holds of every buffer. -/
theorem drain_induct {P : List Byte → Prop} (cfg : Config) (v : Variant)
    (wait : ∀ buf, judge cfg v (hunt v buf) = .wait → P buf)
    (reject : ∀ buf r, judge cfg v (hunt v buf) = .reject r → P ((hunt v buf).drop 1) → P buf)
    (complete : ∀ buf len, judge cfg v (hunt v buf) = .complete len → P ((hunt v buf).drop len) → P buf) :
    ∀ buf, P buf := by
  intro buf
  induction h : buf.length using Nat.strong_induction_on generalizing buf with
  | _ n ih =>
    have hl := hunt_length_le v buf
    cases hj : judge cfg v (hunt v buf) with
    | wait => exact wait buf hj
    | reject r =>
      have hpos := judge_reject_length hj
      have hd : ((hunt v buf).drop 1).length = (hunt v buf).length - 1 := List.length_drop ..
      exact reject buf r hj (ih _ (by omega) _ rfl)
    | complete len =>
      obtain ⟨-, -, h6, -, hle, -⟩ := judge_complete hj
      have hd : ((hunt v buf).drop len).length = (hunt v buf).length - len := List.length_drop ..
      exact complete buf len hj (ih _ (by omega) _ rfl)

/-! ### Bytes behind a decided candidate

A decision of a pass rests on bytes that are there, so bytes that arrive later do not change it. -/

/-- Hunting in what a hunt left, with more bytes behind, is hunting in the whole. -/
theorem hunt_append (v : Variant) (buf more : List Byte) : hunt v (hunt v buf ++ more) = hunt v (buf ++ more) := by
  induction buf with
  | nil => rfl
  | cons b buf ih =>
    by_cases h : b = rxHead v
    · subst h; rw [hunt_cons_head]
    · rw [hunt_cons_noise h, List.cons_append, hunt_cons_noise h, ih]

theorem drain_hunt_append (cfg : Config) (v : Variant) (buf more : List Byte) :
    drain cfg v (hunt v buf ++ more) = drain cfg v (buf ++ more) := by
  rw [drain_eq, hunt_append, ← drain_eq]

theorem hunt_append_of_pos {v : Variant} {buf : List Byte} (h : 0 < (hunt v buf).length) (more : List Byte) :
    hunt v (buf ++ more) = hunt v buf ++ more := by
  rw [← hunt_append]
  apply hunt_of_head?
  rcases hunt_atHead v buf with h' | h'
  · simp [h'] at h
  · rw [List.head?_append, h', Option.some_or]

theorem declLen_append {v : Variant} {buf : List Byte} (h : hdrLen v ≤ buf.length) (more : List Byte) :
    declLen v (buf ++ more) = declLen v buf := by
  cases v <;> simp only [hdrLen] at h <;> simp only [declLen, List.getD_eq_getElem?_getD] <;>
    rw [List.getElem?_append_left (by omega)]

theorem judge_append_complete {cfg : Config} {v : Variant} {buf : List Byte} {len : Nat}
    (h : judge cfg v buf = .complete len) (more : List Byte) : judge cfg v (buf ++ more) = .complete len := by
  obtain ⟨rfl, hh, h6, hm, hl, ht⟩ := judge_complete h
  have hd := declLen_append hh more
  have ht' : (buf ++ more)[declLen v buf - 1]? = some (rxTail cfg v) := by
    rw [List.getElem?_append_left (by omega), ht]
  rcases judge_cases cfg v (buf ++ more) with h' | h' | h' | h' | h' | h'
  all_goals rw [hd, List.length_append] at h'
  · obtain ⟨-, h' | h' | h'⟩ := h'
    · omega
    · omega
    · exact absurd ⟨h6, hm, by omega, ht'⟩ h'.2.2.2
  · omega
  · omega
  · exact absurd ht' h'.2.2.2.2.2.2
  · exact absurd ⟨h6, hm, by omega, ht'⟩ h'.2.2.2.2
  · exact h'.1

theorem judge_append_reject {cfg : Config} {v : Variant} {buf : List Byte} {r : FrameErrReason}
    (he : cfg.earlyReject = true) (h : judge cfg v buf = .reject r) (more : List Byte) :
    judge cfg v (buf ++ more) = .reject r := by
  have hh : hdrLen v ≤ buf.length := by
    by_contra hc
    simp [judge, Nat.lt_of_not_le hc] at h
  have hd := declLen_append hh more
  have hl : ¬(buf ++ more).length < hdrLen v := by rw [List.length_append]; omega
  rw [judge, if_neg (Nat.not_lt.2 hh), if_pos he] at h
  rw [judge, if_neg hl, if_pos he, hd]
  unfold judgeEarly at h ⊢
  split at h
  · rw [if_pos ‹_›, h]
  split at h
  · rw [if_neg ‹_›, if_pos ‹_›, h]
  split at h
  · cases h
  split at h
  · rename_i h6 hm hb ht
    rw [if_neg h6, if_neg hm, if_neg (by rw [List.length_append]; omega), if_pos, h]
    simp only [fixedBytes] at h6
    rwa [List.getElem?_append_left (by omega)]
  · cases h

/-- With EARLY_REJECT, or while the buffer is not past MAX_FRAME, draining after a byte arrives is draining before it and again after:
when the bytes arrive makes no difference. -/
theorem drain_append_byte (cfg : Config) (v : Variant) (b : Byte) :
    ∀ buf : List Byte, cfg.earlyReject = true ∨ buf.length ≤ cfg.maxFrame →
      drain cfg v (buf ++ [b]) =
        ((drain cfg v buf).1 ++ (drain cfg v ((drain cfg v buf).2 ++ [b])).1, (drain cfg v ((drain cfg v buf).2 ++ [b])).2) := by
  refine drain_induct (P := fun buf => cfg.earlyReject = true ∨ buf.length ≤ cfg.maxFrame →
    drain cfg v (buf ++ [b]) =
      ((drain cfg v buf).1 ++ (drain cfg v ((drain cfg v buf).2 ++ [b])).1, (drain cfg v ((drain cfg v buf).2 ++ [b])).2))
    cfg v ?_ ?_ ?_
  · intro buf h _
    rw [drain_eq cfg v buf, h]
    simp [drain_hunt_append]
  · intro buf r h ih hc
    have hl := hunt_length_le v buf
    have hp := judge_reject_length h
    have he : cfg.earlyReject = true := by
      rcases judge_cases cfg v (hunt v buf) with h' | h' | h' | h' | h' | h'
      · exact absurd (h.symm.trans h'.1) (by simp)
      · exact h'.2.2.1
      · exact h'.2.2.1
      · exact h'.2.2.1
      · exact hc.resolve_right (by omega)
      · exact absurd (h.symm.trans h'.1) (by simp)
    rw [drain_eq cfg v (buf ++ [b]), drain_eq cfg v buf, h, hunt_append_of_pos hp, judge_append_reject he h]
    dsimp only
    rw [List.drop_append_of_le_length (by omega), ih (.inl he)]
    simp
  · intro buf len h ih hc
    have hl := hunt_length_le v buf
    obtain ⟨-, -, h6, -, hle, -⟩ := judge_complete h
    rw [drain_eq cfg v (buf ++ [b]), drain_eq cfg v buf, h, hunt_append_of_pos (by omega), judge_append_complete h]
    dsimp only
    have hd : ((hunt v buf).drop len).length = (hunt v buf).length - len := List.length_drop ..
    rw [List.drop_append_of_le_length hle, List.take_append_of_le_length hle, ih (hc.imp_right fun _ => by omega)]
    simp

@[simp] theorem feedBytes_nil (cfg : Config) (v : Variant) (buf : List Byte) : feedBytes cfg v [] buf = ([], buf) := rfl

/-- The per-byte step on the first byte, then the rest of the chunk. -/
theorem feedBytes_cons (cfg : Config) (v : Variant) (b : Byte) (chunk buf : List Byte) :
    feedBytes cfg v (b :: chunk) buf =
      ((drain cfg v (buf ++ [b])).1 ++ (feedBytes cfg v chunk (drain cfg v (buf ++ [b])).2).1,
        (feedBytes cfg v chunk (drain cfg v (buf ++ [b])).2).2) := rfl

end Sys2Proof.Machine
end

