-- ==== Sys2Proof/Laws/Port.lean ====
section
/-! SUPPORT. Lemmas about the fields of command packets: how each field's bytes are read back, and how long they are. -/

namespace Sys2Proof

@[simp] theorem u16OfBytes_bytesOfU16 (v : U16) : u16OfBytes (v.extractLsb' 8 8) (v.extractLsb' 0 8) = v := by
  unfold u16OfBytes
  ext i hi
  simp only [BitVec.getElem_append, BitVec.getElem_extractLsb']
  split
  · simp [BitVec.getLsbD_eq_getElem (show i < 16 from hi)]
  · rename_i h
    have h8 : 8 + (i - 8) = i := by omega
    simp [h8, BitVec.getLsbD_eq_getElem hi]

theorem bytesOfU16_u16OfBytes (hi lo : Byte) : bytesOfU16 (u16OfBytes hi lo) = [hi, lo] := by
  unfold bytesOfU16 u16OfBytes
  rw [BitVec.extractLsb'_append_eq_left, BitVec.extractLsb'_append_eq_right]

@[simp] theorem bytesOfU16_length (v : U16) : (bytesOfU16 v).length = 2 := rfl

@[simp] theorem bytesOfU32_length (v : U32) : (bytesOfU32 v).length = 4 := rfl

@[simp] theorem bytesOfSeq_length (b : List Byte) : (bytesOfSeq b).length = 2 + b.length := by
  simp [bytesOfSeq]

theorem takeU8_eq_some {bs rest : List Byte} {b : Byte} : takeU8 bs = some (b, rest) ↔ bs = b :: rest := by
  cases bs <;> simp [takeU8]

theorem takeU16_eq_some {bs rest : List Byte} {v : U16} :
    takeU16 bs = some (v, rest) ↔ bs = bytesOfU16 v ++ rest := by
  constructor
  · intro h
    match bs, h with
    | hi :: lo :: tl, h =>
      simp only [takeU16, Option.some.injEq, Prod.mk.injEq] at h
      obtain ⟨rfl, rfl⟩ := h
      rw [bytesOfU16_u16OfBytes]; rfl
  · rintro rfl
    simp [bytesOfU16, takeU16]

theorem takeU16_bytesOfU16 (v : U16) (rest : List Byte) : takeU16 (bytesOfU16 v ++ rest) = some (v, rest) :=
  takeU16_eq_some.2 rfl

/-- A SEQ is read back from its bytes when it fits. -/
theorem takeSeq_bytesOfSeq {b : List Byte} (h : b.length ≤ 65535) (rest : List Byte) :
    takeSeq (bytesOfSeq b ++ rest) = some (b, rest) := by
  have hn : (BitVec.ofNat 16 b.length).toNat = b.length := by simp; omega
  simp [takeSeq, bytesOfSeq, List.append_assoc, takeU16_bytesOfU16, hn, -BitVec.toNat_ofNat]

/-- What reading a SEQ tells about the bytes. -/
theorem takeSeq_eq_some {bs b rest : List Byte} (h : takeSeq bs = some (b, rest)) :
    b.length ≤ 65535 ∧ bs = bytesOfSeq b ++ rest := by
  unfold takeSeq at h
  cases hu : takeU16 bs with
  | none => simp [hu] at h
  | some q =>
    obtain ⟨n, tl⟩ := q
    simp only [hu, Option.bind_eq_bind, Option.bind_some] at h
    split at h
    · rename_i hle
      simp only [Option.some.injEq, Prod.mk.injEq] at h
      obtain ⟨rfl, rfl⟩ := h
      have hl : (tl.take n.toNat).length = n.toNat := by simp; omega
      have hlt := n.isLt
      refine ⟨by omega, ?_⟩
      rw [takeU16_eq_some.1 hu, bytesOfSeq, hl, BitVec.ofNat_toNat, BitVec.setWidth_eq, List.append_assoc,
        List.take_append_drop]
    · cases h

@[simp] theorem takeEnd_eq_some {α : Type} {a a' : α} {bs : List Byte} :
    takeEnd a bs = some a' ↔ bs = [] ∧ a = a' := by
  cases bs <;> simp [takeEnd]

@[simp] theorem Opcode.ofByte_byte (o : Opcode) : Opcode.ofByte o.byte = some o := by
  cases o <;> rfl

theorem Opcode.byte_of_ofByte {b : Byte} {o : Opcode} (h : Opcode.ofByte b = some o) : o.byte = b := by
  simpa using List.find?_some h

/-- The length that a layout asks for does not look past the fields it covers: appending a whole SEQ in front of more bytes. -/
theorem operandsLength_seq {b : List Byte} (h : b.length ≤ 65535) (ks : List OperandKind) (rest : List Byte) :
    operandsLength (.seq :: ks) (bytesOfSeq b ++ rest) = 2 + b.length + operandsLength ks rest := by
  have hn : (BitVec.ofNat 16 b.length).toNat = b.length := by simp; omega
  have hc : u16OfBytes ((bytesOfSeq b ++ rest).getD 0 0) ((bytesOfSeq b ++ rest).getD 1 0) = BitVec.ofNat 16 b.length := by
    simp only [bytesOfSeq, bytesOfU16]
    exact u16OfBytes_bytesOfU16 _
  have hd : (bytesOfSeq b ++ rest).drop (2 + b.length) = rest := by
    rw [← bytesOfSeq_length]; exact List.drop_left ..
  rw [operandsLength, hc, hn, hd]

end Sys2Proof
end

