-- ==== Sys2Proof/Laws/State.lean ====
section
/-! SUPPORT. The fields of the state after each update of it: one lemma per field per update, so that no proof unfolds a record
update. -/

namespace Sys2Proof.Machine

open Sys2Proof

/-! ### respond -/

@[simp] theorem State.respond_frmVariant (s : State) (r : Response) : (s.respond r).frmVariant = s.frmVariant := rfl
@[simp] theorem State.respond_frmBuf (s : State) (r : Response) : (s.respond r).frmBuf = s.frmBuf := rfl
@[simp] theorem State.respond_cfg (s : State) (r : Response) : (s.respond r).cfg = s.cfg := rfl
@[simp] theorem State.respond_inReset (s : State) (r : Response) : (s.respond r).inReset = s.inReset := rfl
@[simp] theorem State.respond_pending (s : State) (r : Response) : (s.respond r).pending = s.pending := rfl
@[simp] theorem State.respond_responses (s : State) (r : Response) : (s.respond r).responses = s.responses ++ [encodeResponse r] := rfl

/-! ### setFrmBuf -/

@[simp] theorem State.setFrmBuf_frmVariant (s : State) (b : List Byte) : (s.setFrmBuf b).frmVariant = s.frmVariant := rfl
@[simp] theorem State.setFrmBuf_frmBuf (s : State) (b : List Byte) : (s.setFrmBuf b).frmBuf = b := rfl
@[simp] theorem State.setFrmBuf_cfg (s : State) (b : List Byte) : (s.setFrmBuf b).cfg = s.cfg := rfl
@[simp] theorem State.setFrmBuf_inReset (s : State) (b : List Byte) : (s.setFrmBuf b).inReset = s.inReset := rfl
@[simp] theorem State.setFrmBuf_pending (s : State) (b : List Byte) : (s.setFrmBuf b).pending = s.pending := rfl
@[simp] theorem State.setFrmBuf_responses (s : State) (b : List Byte) : (s.setFrmBuf b).responses = s.responses := rfl

/-! ### setFrmVariant -/

@[simp] theorem State.setFrmVariant_frmVariant (s : State) (v : Variant) : (s.setFrmVariant v).frmVariant = v := rfl
@[simp] theorem State.setFrmVariant_frmBuf (s : State) (v : Variant) : (s.setFrmVariant v).frmBuf = s.frmBuf := rfl
@[simp] theorem State.setFrmVariant_cfg (s : State) (v : Variant) : (s.setFrmVariant v).cfg = s.cfg := rfl
@[simp] theorem State.setFrmVariant_inReset (s : State) (v : Variant) : (s.setFrmVariant v).inReset = s.inReset := rfl
@[simp] theorem State.setFrmVariant_pending (s : State) (v : Variant) : (s.setFrmVariant v).pending = s.pending := rfl
@[simp] theorem State.setFrmVariant_responses (s : State) (v : Variant) : (s.setFrmVariant v).responses = s.responses := rfl

/-! ### resetAction -/

@[simp] theorem State.resetAction_frmVariant (s : State) : s.resetAction.frmVariant = s.cfg.linkVariant := rfl
@[simp] theorem State.resetAction_frmBuf (s : State) : s.resetAction.frmBuf = [] := rfl
@[simp] theorem State.resetAction_cfg (s : State) : s.resetAction.cfg = s.cfg := rfl
@[simp] theorem State.resetAction_inReset (s : State) : s.resetAction.inReset = s.inReset := rfl
@[simp] theorem State.resetAction_pending (s : State) : s.resetAction.pending = s.pending := rfl
@[simp] theorem State.resetAction_responses (s : State) : s.resetAction.responses = s.responses := rfl

/-! ### assertReset -/

@[simp] theorem State.assertReset_frmVariant (s : State) : s.assertReset.frmVariant = s.cfg.linkVariant := rfl
@[simp] theorem State.assertReset_frmBuf (s : State) : s.assertReset.frmBuf = [] := rfl
@[simp] theorem State.assertReset_cfg (s : State) : s.assertReset.cfg = s.cfg := rfl
@[simp] theorem State.assertReset_inReset (s : State) : s.assertReset.inReset = true := rfl
@[simp] theorem State.assertReset_pending (s : State) : s.assertReset.pending = s.pending := rfl
@[simp] theorem State.assertReset_responses (s : State) : s.assertReset.responses = s.responses := rfl

/-! ### releaseReset -/

@[simp] theorem State.releaseReset_frmVariant (s : State) : s.releaseReset.frmVariant = s.frmVariant := rfl
@[simp] theorem State.releaseReset_frmBuf (s : State) : s.releaseReset.frmBuf = s.frmBuf := rfl
@[simp] theorem State.releaseReset_cfg (s : State) : s.releaseReset.cfg = s.cfg := rfl
@[simp] theorem State.releaseReset_inReset (s : State) : s.releaseReset.inReset = false := rfl
@[simp] theorem State.releaseReset_pending (s : State) : s.releaseReset.pending = s.pending := rfl
@[simp] theorem State.releaseReset_responses (s : State) : s.releaseReset.responses = s.responses := rfl

/-! ### popInput -/

@[simp] theorem State.popInput_frmVariant (s : State) : s.popInput.frmVariant = s.frmVariant := rfl
@[simp] theorem State.popInput_frmBuf (s : State) : s.popInput.frmBuf = s.frmBuf := rfl
@[simp] theorem State.popInput_cfg (s : State) : s.popInput.cfg = s.cfg := rfl
@[simp] theorem State.popInput_inReset (s : State) : s.popInput.inReset = s.inReset := rfl
@[simp] theorem State.popInput_pending (s : State) : s.popInput.pending = s.pending.tail := rfl
@[simp] theorem State.popInput_responses (s : State) : s.popInput.responses = s.responses := rfl

/-! ### withFetchWord -/

@[simp] theorem State.withFetchWord_frmVariant (s : State) (nbits w : Nat) : (s.withFetchWord nbits w).frmVariant = s.frmVariant := rfl
@[simp] theorem State.withFetchWord_frmBuf (s : State) (nbits w : Nat) : (s.withFetchWord nbits w).frmBuf = s.frmBuf := rfl
@[simp] theorem State.withFetchWord_cfg (s : State) (nbits w : Nat) : (s.withFetchWord nbits w).cfg = s.cfg := rfl
@[simp] theorem State.withFetchWord_inReset (s : State) (nbits w : Nat) : (s.withFetchWord nbits w).inReset = false := rfl
@[simp] theorem State.withFetchWord_pending (s : State) (nbits w : Nat) : (s.withFetchWord nbits w).pending = .packet (packetOfWord nbits w) :: s.pending := rfl
@[simp] theorem State.withFetchWord_responses (s : State) (nbits w : Nat) : (s.withFetchWord nbits w).responses = s.responses := rfl

/-! ### The state after reset -/

@[simp] theorem State.reset_frmVariant : State.reset.frmVariant = Config.hw.linkVariant := rfl
@[simp] theorem State.reset_frmBuf : State.reset.frmBuf = [] := rfl
@[simp] theorem State.reset_cfg : State.reset.cfg = Config.hw := rfl
@[simp] theorem State.reset_inReset : State.reset.inReset = false := rfl
@[simp] theorem State.reset_pending : State.reset.pending = [] := rfl
@[simp] theorem State.reset_responses : State.reset.responses = [] := rfl

end Sys2Proof.Machine
end

