-- ==== Sys2Proof/Laws/Ops.lean ====
section
/-! SUPPORT. For each shared operation, what it can do, said once. -/

namespace Sys2Proof.Machine

open Sys2Proof

/-! ### Raising and finishing -/

@[simp] theorem require_of_holds {p : Prop} [Decidable p] {e : ErrorStatus} (h : p) : require p e = .ok () := by
  simp [require, h]

@[simp] theorem require_of_fails {p : Prop} [Decidable p] {e : ErrorStatus} (h : ¬p) :
    require p e = .error (.status e) := by
  simp [require, h]

/-- A requirement that was passed held. -/
theorem holds_of_require {p : Prop} [Decidable p] {e : ErrorStatus} {u : Unit} (h : require p e = .ok u) : p := by
  by_contra hp
  simp [require, hp] at h

/-- A requirement that ended the operation failed, and raised its status. -/
theorem fails_of_require {p : Prop} [Decidable p] {e : ErrorStatus} {r : Raise} (h : require p e = .error r) :
    ¬p ∧ r = .status e := by
  by_cases hp : p
  · simp [require, hp] at h
  · simp only [require, hp, if_false, Except.error.injEq] at h
    exact ⟨hp, h.symm⟩

@[simp] theorem codec_ok {α : Type} (a : α) : codec (.ok a) = .ok a := rfl

@[simp] theorem codec_outOfRange {α : Type} :
    codec (.error .outOfRange : Except CursorError α) = .error (.status .frameError) := rfl

theorem codec_eq_ok {α : Type} {o : Except CursorError α} {a : α} : codec o = .ok a ↔ o = .ok a := by
  cases o with
  | ok b => simp
  | error e => cases e <;> simp [codec]

theorem bind_eq_ok {ε α β : Type} {x : Except ε α} {f : α → Except ε β} {b : β} :
    (x >>= f) = .ok b ↔ ∃ a, x = .ok a ∧ f a = .ok b := by
  cases x <;> simp [bind, Except.bind]

theorem bind_eq_error {ε α β : Type} {x : Except ε α} {f : α → Except ε β} {e : ε} :
    (x >>= f) = .error e ↔ x = .error e ∨ ∃ a, x = .ok a ∧ f a = .error e := by
  cases x <;> simp [bind, Except.bind]

@[simp] theorem State.finish_ok (s : State) (r : Result) : s.finish (.ok r) = .next (s.respond (.ok r)) := rfl

@[simp] theorem State.finish_status (s : State) (e : ErrorStatus) :
    s.finish (.error (.status e)) = .next (s.respond (.raised e)) := rfl

/-- All that ending an operation can do: answer with its results, answer with the raised status, or stop where the operation
has no meaning. It never faults. -/
theorem State.finish_cases (s : State) (o : Except Raise Result) :
    (∃ r, o = .ok r ∧ s.finish o = .next (s.respond (.ok r))) ∨
    (∃ e, o = .error (.status e) ∧ s.finish o = .next (s.respond (.raised e))) ∨
    (∃ r, o = .error (.refuse r) ∧ s.finish o = .refused r) := by
  match o with
  | .ok r => exact .inl ⟨r, rfl, rfl⟩
  | .error (.status e) => exact .inr (.inl ⟨e, rfl, rfl⟩)
  | .error (.refuse r) => exact .inr (.inr ⟨r, rfl, rfl⟩)

/-! ### Responses -/

/-- A response to status OK starts with 0x00, and any other stands alone with a code that is not 0x00. -/
theorem encodeResponse_cases (r : Response) :
    (∃ x, r = .ok x ∧ encodeResponse r = 0x00 :: encodeResult x) ∨
    (∃ e, r = .raised e ∧ encodeResponse r = [e.code] ∧ e.code ≠ 0x00) := by
  cases r with
  | ok x => exact .inl ⟨x, rfl, rfl⟩
  | raised e => exact .inr ⟨e, rfl, rfl, by cases e <;> decide⟩

theorem ErrorStatus.code_injective {e e' : ErrorStatus} (h : e.code = e'.code) : e = e' := by
  cases e <;> cases e' <;> first | rfl | exact absurd h (by decide)

/-! ### The Byte Cursor -/

theorem Cursor.putN_assembly (buf b : List Byte) (rd : Nat) :
    (Cursor.mk buf rd .assembly).putN b = .ok ⟨buf ++ b, rd, .assembly⟩ := rfl

theorem Cursor.put_assembly (buf : List Byte) (rd : Nat) (b : Byte) :
    (Cursor.mk buf rd .assembly).put b = .ok ⟨buf ++ [b], rd, .assembly⟩ := rfl

/-- All that `CurGet` can do on a parse cursor: give the next byte and advance by one, or fail at the end. -/
theorem Cursor.get_cases (buf : List Byte) (rd : Nat) :
    (∃ b, buf[rd]? = some b ∧ (Cursor.mk buf rd .parse).get = .ok (b, ⟨buf, rd + 1, .parse⟩)) ∨
    (buf.length ≤ rd ∧ (Cursor.mk buf rd .parse).get = .error .outOfRange) := by
  cases h : buf[rd]? with
  | some b => exact .inl ⟨b, rfl, by simp [Cursor.get, h]⟩
  | none => exact .inr ⟨by simpa using h, by simp [Cursor.get, h]⟩

/-- All that `CurGetN` can do on a parse cursor: give the next `n` bytes and advance by `n`, or fail. -/
theorem Cursor.getN_cases (buf : List Byte) (rd n : Nat) :
    (rd + n ≤ buf.length ∧
      (Cursor.mk buf rd .parse).getN n = .ok ((buf.drop rd).take n, ⟨buf, rd + n, .parse⟩)) ∨
    (buf.length < rd + n ∧ (Cursor.mk buf rd .parse).getN n = .error .outOfRange) := by
  by_cases h : rd + n ≤ buf.length
  · exact .inl ⟨h, by simp [Cursor.getN, Nat.not_lt.2 h]⟩
  · exact .inr ⟨by omega, by simp [Cursor.getN, Nat.lt_of_not_le h]⟩

/-! ### Taking the next input -/

/-- All that taking the next input can do. -/
theorem State.fetch_cases (s : State) :
    (s.pending = [] ∧ s.fetch = .done s) ∨
    (∃ rest, s.pending = .resetAssert :: rest ∧ s.fetch = .done s.popInput.assertReset) ∨
    (∃ rest, s.pending = .resetRelease :: rest ∧ s.fetch = .done s.popInput.releaseReset) ∨
    (∃ p rest, s.pending = .packet p :: rest ∧
      ((s.inReset = true ∧ s.fetch = .refused .operationDuringReset) ∨
       (s.inReset = false ∧
        ((∃ i, decode p = .ok i ∧ s.fetch = .run i s.popInput) ∨
         (decode p = .error .noOpcode ∧ s.fetch = .fault .emptyPacket) ∨
         (∃ opc, decode p = .error (.undefinedOpcode opc) ∧
           s.fetch = .done (s.popInput.respond (.raised .illegalOp))) ∨
         (∃ o, decode p = .error (.malformed o) ∧
           s.fetch = .done (s.popInput.respond (.raised .badPacket))))))) := by
  rcases hp : s.pending with _ | ⟨x, rest⟩
  · exact .inl ⟨rfl, by simp [State.fetch, hp]⟩
  · right
    cases x with
    | resetAssert => exact .inl ⟨rest, rfl, by simp [State.fetch, hp]⟩
    | resetRelease => exact .inr (.inl ⟨rest, rfl, by simp [State.fetch, hp]⟩)
    | packet p =>
      refine .inr (.inr ⟨p, rest, rfl, ?_⟩)
      cases hr : s.inReset with
      | true => exact .inl ⟨rfl, by simp [State.fetch, hp, hr]⟩
      | false =>
        refine .inr ⟨rfl, ?_⟩
        rcases hd : decode p with e | i
        · cases e with
          | noOpcode => exact .inr (.inl ⟨rfl, by simp [State.fetch, hp, hr, hd]⟩)
          | undefinedOpcode opc => exact .inr (.inr (.inl ⟨opc, rfl, by simp [State.fetch, hp, hr, hd]⟩))
          | malformed o => exact .inr (.inr (.inr ⟨o, rfl, by simp [State.fetch, hp, hr, hd]⟩))
        · exact .inl ⟨i, rfl, by simp [State.fetch, hp, hr, hd]⟩

end Sys2Proof.Machine
end

