-- ==== Sys2Proof/Laws/PerInstr.lean ====
section
/-! SUPPORT. A statement about every operation as syntax: the packet of a well-formed operation has exactly the length its opcode's
layout gives (30_encoding.md R53). -/

namespace Sys2Proof.Laws.PacketLength

open Sys2Proof

/-- The packet of a well-formed operation is as long as its opcode's layout says. -/
def Statement (i : Instr) : Prop :=
  i.wellFormed = true → (encode i).length = i.opcode.packetLength (encodeOperands i)

/-- One SEQ that fits, then fields without a count. -/
theorem seq_tail {b : List Byte} (h : seqFits b = true) (ks : List OperandKind) (rest : List Byte) :
    operandsLength (.seq :: ks) (bytesOfSeq b ++ rest) = 2 + b.length + operandsLength ks rest :=
  operandsLength_seq (by simpa [seqFits] using h) ks rest

theorem seq_end {b : List Byte} (h : seqFits b = true) : operandsLength [.seq] (bytesOfSeq b) = 2 + b.length := by
  have := seq_tail h [] []
  simpa [operandsLength] using this

theorem ckSum (b : List Byte) (start n : U16) : Statement (.ckSum b start n) := by
  intro h
  simp [encode, encodeOperands, Instr.opcode, Opcode.packetLength, Opcode.operands, List.append_assoc,
    seq_tail h, operandsLength]
  omega

theorem ckSumEnd (b : List Byte) (start : U16) : Statement (.ckSumEnd b start) := by
  intro h
  simp [encode, encodeOperands, Instr.opcode, Opcode.packetLength, Opcode.operands, seq_tail h,
    operandsLength]
  omega

theorem ckSumRng (b : List Byte) (start stop : U16) : Statement (.ckSumRng b start stop) := by
  intro h
  simp [encode, encodeOperands, Instr.opcode, Opcode.packetLength, Opcode.operands, List.append_assoc,
    seq_tail h, operandsLength]
  omega

theorem ckVerify (v : Byte) (f : List Byte) : Statement (.ckVerify v f) := by
  intro h
  simp [encode, encodeOperands, Instr.opcode, Opcode.packetLength, Opcode.operands, operandsLength.eq_2, seq_end h]
  omega

theorem encI (a c : Byte) (p : List Byte) : Statement (.encI a c p) := by
  intro h
  simp [encode, encodeOperands, Instr.opcode, Opcode.packetLength, Opcode.operands, operandsLength.eq_2, seq_end h]
  omega

theorem decI (pcc : Byte) (f : List Byte) : Statement (.decI pcc f) := by
  intro h
  simp [encode, encodeOperands, Instr.opcode, Opcode.packetLength, Opcode.operands, operandsLength.eq_2, seq_end h]
  omega

theorem pAddr (i : Byte) : Statement (.pAddr i) := fun _ => rfl

theorem encP (a c : Byte) (p : List Byte) : Statement (.encP a c p) := by
  intro h
  simp [encode, encodeOperands, Instr.opcode, Opcode.packetLength, Opcode.operands, operandsLength.eq_2, seq_end h]
  omega

theorem decP (f : List Byte) : Statement (.decP f) := by
  intro h
  simp [encode, encodeOperands, Instr.opcode, Opcode.packetLength, Opcode.operands, seq_end h]
  omega

theorem frmReset : Statement .frmReset := fun _ => rfl

theorem frmCfg (v : Byte) : Statement (.frmCfg v) := fun _ => rfl

theorem frmFeed (c : List Byte) : Statement (.frmFeed c) := by
  intro h
  simp [encode, encodeOperands, Instr.opcode, Opcode.packetLength, Opcode.operands, seq_end h]
  omega

end Sys2Proof.Laws.PacketLength
end

