-- ==== Sys2Proof/Tests/Slice0.lean ====
section
/-! SUPPORT. Small tests: the checks of WellFormed, the decoding of packets written out by hand, one step per operation with
expected values from the vectors of 95_test_vectors.md (their names stand in the comments), and for every statement with
hypotheses a concrete state and operands that meet them. -/

namespace Sys2Proof.Tests

open Sys2Proof Sys2Proof.Machine

set_option maxRecDepth 4000

/-! ### Helpers -/

/-- The example configuration EXC of 95_test_vectors.md, with 0xEE for its symbolic PLATE_RX_TAIL. -/
def exc : Config where
  instrCkStart := .one
  plateRxTail := 0xEE
  maxFrame := 261
  earlyReject := true
  instrLayout := [(0x04, ⟨13, [⟨0, .one⟩, ⟨2, .thousand⟩]⟩)]
  plateMeasCodes := [0x26]
  plateSysAddr := 0x00
  linkVariant := .plate

/-- A state with configuration `cfg`, variant `v` and buffer `buf`, nothing at the port. -/
def mk (cfg : Config) (v : Variant) (buf : List Byte) : State := ⟨v, buf, cfg, false, [], []⟩

/-- An idle Instrument framer under EXC. -/
def idle : State := mk exc .instr []

/-- The idle state with one input at the port. -/
def given (x : PortInput) : State := { idle with pending := [x] }

/-- The last response, FRM_VARIANT and FRM_BUF of a next state. -/
def seen (o : Host.Outcome State Fault Refusal) : Option (Option (List Byte) × Variant × List Byte) :=
  match o with
  | .next t => some (t.responses.getLast?, t.frmVariant, t.frmBuf)
  | .fault _ => none
  | .refused _ => none

/-- The last response of a next state. -/
def answer (o : Host.Outcome State Fault Refusal) : Option (List Byte) := (seen o).bind Prod.fst

/-- The frame V of 95_test_vectors.md. -/
def vFrame : List Byte := [0x7B, 0x06, 0x01, 0x04, 0x0B, 0x7D]

/-- The frame PG of 95_test_vectors.md. -/
def pgFrame : List Byte := [0x4F, 0x81, 0x26, 0x02, 0x04, 0xD2, 0xCE, 0xEE]

/-- The payload of the frame R04 of 95_test_vectors.md. -/
def r04Payload : List Byte := [0x09, 0x60, 0x03, 0xE8] ++ List.replicate 9 0x00

/-- The frame R04 of 95_test_vectors.md. -/
def r04 : List Byte := [0x7B, 0x13, 0x01, 0x04] ++ r04Payload ++ [0x6C, 0x7D]

/-! ### WellFormed refuses a SEQ of 65536 bytes, in every operation that has one -/

/-- Whether a SEQ of `n` equal bytes fits. -/
theorem seqFits_replicate (n : Nat) (b : Byte) : seqFits (List.replicate n b) = decide (n ≤ 65535) := by
  rw [seqFits, List.length_replicate]

theorem test_wf_ckSum : (Instr.ckSum (List.replicate 65536 0) 0 0).wellFormed = false :=
  (seqFits_replicate 65536 0).trans (by decide)
theorem test_wf_ckSumEnd : (Instr.ckSumEnd (List.replicate 65536 0) 0).wellFormed = false :=
  (seqFits_replicate 65536 0).trans (by decide)
theorem test_wf_ckSumRng : (Instr.ckSumRng (List.replicate 65536 0) 0 0).wellFormed = false :=
  (seqFits_replicate 65536 0).trans (by decide)
theorem test_wf_ckVerify : (Instr.ckVerify 0 (List.replicate 65536 0)).wellFormed = false :=
  (seqFits_replicate 65536 0).trans (by decide)
theorem test_wf_encI : (Instr.encI 0 0 (List.replicate 65536 0)).wellFormed = false :=
  (seqFits_replicate 65536 0).trans (by decide)
theorem test_wf_decI : (Instr.decI 0 (List.replicate 65536 0)).wellFormed = false :=
  (seqFits_replicate 65536 0).trans (by decide)
theorem test_wf_encP : (Instr.encP 0 0 (List.replicate 65536 0)).wellFormed = false :=
  (seqFits_replicate 65536 0).trans (by decide)
theorem test_wf_decP : (Instr.decP (List.replicate 65536 0)).wellFormed = false :=
  (seqFits_replicate 65536 0).trans (by decide)
theorem test_wf_frmFeed : (Instr.frmFeed (List.replicate 65536 0)).wellFormed = false :=
  (seqFits_replicate 65536 0).trans (by decide)

/-! ### Decoding, every operation from its packet written out byte by byte (R54; the packets of P1 to P4) -/

theorem test_decode_ckSum : decode [0x10, 0x00, 0x06, 0x7B, 0x06, 0x01, 0x04, 0x0B, 0x7D, 0x00, 0x01, 0x00, 0x03] =
    .ok (.ckSum vFrame 1 3) := by rfl
theorem test_decode_ckSumEnd : decode [0x11, 0x00, 0x06, 0x7B, 0x06, 0x01, 0x04, 0x0B, 0x7D, 0x00, 0x07] =
    .ok (.ckSumEnd vFrame 7) := by rfl
theorem test_decode_ckSumRng : decode [0x12, 0x00, 0x02, 0xAA, 0xBB, 0x01, 0x02, 0x03, 0x04] =
    .ok (.ckSumRng [0xAA, 0xBB] 0x0102 0x0304) := by rfl
theorem test_decode_ckVerify : decode [0x13, 0x02, 0x00, 0x01, 0x7B] = .ok (.ckVerify 0x02 [0x7B]) := by rfl
theorem test_decode_encI : decode [0x20, 0x01, 0x04, 0x00, 0x02, 0x4F, 0x4B] = .ok (.encI 0x01 0x04 [0x4F, 0x4B]) := by rfl
theorem test_decode_decI : decode [0x21, 0x04, 0x00, 0x06, 0x7B, 0x06, 0x01, 0x04, 0x0B, 0x7D] = .ok (.decI 0x04 vFrame) := by
  rfl
theorem test_decode_pAddr : decode [0x30, 0x01] = .ok (.pAddr 0x01) := by rfl
theorem test_decode_encP : decode [0x31, 0x81, 0x26, 0x00, 0x01, 0x5A] = .ok (.encP 0x81 0x26 [0x5A]) := by rfl
theorem test_decode_decP : decode [0x32, 0x00, 0x08, 0x4F, 0x81, 0x26, 0x02, 0x04, 0xD2, 0xCE, 0xEE] =
    .ok (.decP pgFrame) := by rfl
theorem test_decode_frmReset : decode [0x40] = .ok .frmReset := by rfl
theorem test_decode_frmCfg : decode [0x41, 0x01] = .ok (.frmCfg 0x01) := by rfl
theorem test_decode_frmFeed : decode [0x42, 0x00, 0x03, 0x7B, 0x06, 0x01] = .ok (.frmFeed [0x7B, 0x06, 0x01]) := by rfl

/-- The assembler's text for a pseudo-operation (R72, R73; P2 steps 2 and 3). -/
theorem test_assemble_sock : PseudoOp.expand (.encPSock 0x01 0x26 []) = [.pAddr 0x01, .encP 0x81 0x26 []] := by rfl

/-- A table word of 8 bits is the opcode with operand bytes of zero, and the next step runs it. -/
theorem test_table_word : decodeTableWord 8 0x10 = some (.ckSum [] 0 0) ∧ decodeTableWord 8 0x14 = none := by decide
theorem test_fetch_word : answer (step (idle.withFetchWord 8 0x30)) = some [0x00, 0x80] := by decide

/-! ### The operations -/

-- CK-S4, CK-S6
theorem test_ckSum_range : answer (exec (.ckSum vFrame 4 3) idle) = some [0x05] := by decide
theorem test_ckSum_wrap : answer (exec (.ckSum [0xFF, 0xFF] 0 2) idle) = some [0x00, 0xFE] := by decide
-- CK-E1, CK-E3
theorem test_ckSumEnd : answer (exec (.ckSumEnd vFrame 1) idle) = some [0x00, 0x93] := by decide
theorem test_ckSumEnd_range : answer (exec (.ckSumEnd vFrame 7) idle) = some [0x05] := by decide
-- CK-R1, CK-R2
theorem test_ckSumRng : answer (exec (.ckSumRng vFrame 1 4) idle) = some [0x00, 0x0B] := by decide
theorem test_ckSumRng_reversed : answer (exec (.ckSumRng vFrame 4 3) idle) = some [0x05] := by decide
-- CK-V4 (s2), CK-V5
theorem test_ckVerify_start : answer (exec (.ckVerify 0x00 [0x7B, 0x06, 0x01, 0x04, 0x05, 0x7D])
    (mk { exc with instrCkStart := .two } .instr [])) = some [0x00, 0x01] := by decide
theorem test_ckVerify_plate : answer (exec (.ckVerify 0x01 [0x4E, 0x81, 0x26, 0x00, 0xF5, 0x45]) idle) = some [0x00, 0x01] := by
  decide
-- I-E3, I-E5 (s2)
theorem test_encI_wrap : answer (exec (.encI 0xFF 0xFF [0xFF, 0xFF, 0xFF]) idle) =
    some [0x00, 0x00, 0x09, 0x7B, 0x09, 0xFF, 0xFF, 0xFF, 0xFF, 0xFF, 0x04, 0x7D] := by decide
theorem test_encI_start : answer (exec (.encI 0x12 0x34 [0x7B, 0x7D]) (mk { exc with instrCkStart := .two } .instr [])) =
    some [0x00, 0x00, 0x08, 0x7B, 0x08, 0x12, 0x34, 0x7B, 0x7D, 0x3E, 0x7D] := by decide
-- I-D1 (P1 step 5), I-D7
theorem test_decI_numeric : answer (exec (.decI 0x04 r04) idle) =
    some ([0x00, 0x01, 0x04, 0x00, 0x0D] ++ r04Payload ++ [0x01, 0x02, 0x09, 0x60, 0x00, 0x01, 0x03, 0xE8, 0x03, 0xE8]) := by
  decide
theorem test_decI_priority : answer (exec (.decI 0x04 ((r04.set 6 0x02).set 18 0x7E)) idle) = some [0x02] := by decide
-- P-A3, P-A4
theorem test_pAddr_last : answer (exec (.pAddr 0x7F) idle) = some [0x00, 0xFF] := by decide
theorem test_pAddr_range : answer (exec (.pAddr 0x80) idle) = some [0x05] := by decide
-- P-E3, P-E4
theorem test_encP : answer (exec (.encP 0x81 0x26 [0x04, 0xD2]) idle) =
    some [0x00, 0x00, 0x08, 0x4E, 0x81, 0x26, 0x02, 0x04, 0xD2, 0xCD, 0x45] := by decide
theorem test_encP_wrap : answer (exec (.encP 0xFF 0xFF [0xFF, 0xFF, 0xFF]) idle) =
    some [0x00, 0x00, 0x09, 0x4E, 0xFF, 0xFF, 0x03, 0xFF, 0xFF, 0xFF, 0x4C, 0x45] := by decide
-- P-D1 (P2 step 5), P-D6
theorem test_decP_measurement : answer (exec (.decP pgFrame) idle) =
    some [0x00, 0x81, 0x26, 0x00, 0x02, 0x04, 0xD2, 0x01, 0x01, 0x04, 0xD2, 0x00, 0x64] := by decide
theorem test_decP_unknown : answer (exec (.decP [0x4F, 0x81, 0x26, 0x01, 0x04, 0xFB, 0xEE]) idle) = some [0x03] := by decide
-- FR-R1
theorem test_frmReset : seen (exec .frmReset (mk exc .instr [0x7B, 0x06, 0x01])) = some (some [0x00], .instr, []) := by decide
-- FR-R2, FR-R3
theorem test_frmCfg : seen (exec (.frmCfg 0x01) (mk exc .instr [0x7B, 0x06, 0x01])) = some (some [0x00], .plate, []) := by decide
theorem test_frmCfg_reserved : seen (exec (.frmCfg 0x02) (mk exc .instr [0x7B, 0x06, 0x01])) =
    some (some [0x07], .instr, [0x7B, 0x06, 0x01]) := by decide
-- FR-3, and its lit column
theorem test_frmFeed_early : seen (exec (.frmFeed ([0xAA, 0x7B, 0x03] ++ vFrame)) idle) =
    some (some ([0x00, 0x00, 0x00, 0x00, 0x02, 0x01, 0x00, 0x00, 0x00, 0x06] ++ vFrame), .instr, []) := by decide
theorem test_frmFeed_lit : seen (exec (.frmFeed ([0xAA, 0x7B, 0x03] ++ vFrame)) (mk { exc with earlyReject := false } .instr [])) =
    some (some [0x00, 0x00, 0x00, 0x00, 0x00], .instr, [0x7B, 0x03] ++ vFrame) := by decide

/-! ### The command port -/

-- CP-1, CP-3, CP-4, CP-6
theorem test_port_ok : answer (step (given (.packet [0x20, 0x01, 0x04, 0x00, 0x00]))) =
    some [0x00, 0x00, 0x06, 0x7B, 0x06, 0x01, 0x04, 0x0B, 0x7D] := by decide
theorem test_port_illegal : answer (step (given (.packet [0x05, 0x01, 0x02, 0x03]))) = some [0x07] := by decide
theorem test_port_short : answer (step (given (.packet [0x30]))) = some [0x08] := by decide
theorem test_port_seq : answer (step (given (.packet [0x42, 0x00, 0x03, 0x7B, 0x06]))) = some [0x08] := by decide
-- FR-R4
theorem test_port_reset : seen (step { mk exc .instr [0x7B] with pending := [.resetAssert] }) = some (none, .plate, []) := by
  decide

/-! ### Witnesses: for every statement with hypotheses, values that meet them, at the boundaries of each clause -/

theorem test_witness_DecodeInvertsEncode : (Instr.frmFeed (List.replicate 65535 0)).wellFormed = true :=
  (seqFits_replicate 65535 0).trans (by decide)

theorem test_witness_EncodeInvertsDecode : decode [0x30, 0x80] = .ok (.pAddr 0x80) := by rfl

theorem test_witness_IllegalEncodings :
    (∀ opc ∈ ([0x00, 0x0F, 0x14, 0x1F, 0x22, 0x2F, 0x33, 0x3F, 0x43, 0xFF] : List Byte), UndefinedOpcode opc) ∧
    (given (.packet [0x05])).inReset = false ∧ (given (.packet [0x05])).pending = .packet [0x05] :: [] ∧
    (∀ v ∈ ([0x02, 0xFF] : List Byte), 1 < v.toNat) := by
  unfold UndefinedOpcode; decide

theorem test_witness_MalformedPackets :
    ((Opcode.pAddr.byte :: [0x01]).length = Opcode.pAddr.packetLength [0x01]) ∧
    ((Opcode.pAddr.byte :: []).length ≠ Opcode.pAddr.packetLength []) ∧
    ((Opcode.frmReset.byte :: [0x00]).length ≠ Opcode.frmReset.packetLength [0x00]) ∧
    (given (.packet [0x30])).inReset = false ∧ (given (.packet [0x30])).pending = .packet [0x30] :: [] := by decide

theorem test_witness_StepRuns : (given (.packet [0x30, 0x80])).inReset = false ∧
    (given (.packet [0x30, 0x80])).pending = .packet [0x30, 0x80] :: [] ∧ decode [0x30, 0x80] = .ok (.pAddr 0x80) :=
  ⟨rfl, rfl, rfl⟩

theorem test_witness_EveryPacket : (given (.packet [0xFF])).inReset = false ∧ ([0xFF] : List Byte) ≠ [] ∧
    (given (.packet [0xFF])).pending = .packet [0xFF] :: [] := by decide

theorem test_witness_RaisedStatuses :
    exec (.pAddr 0x80) idle = .next (idle.answered [0x05]) ∧
    (idle.answered [0x05]).responses = idle.responses ++ [0x05 :: []] ∧ (0x05 : Byte) ≠ 0x00 ∧
    (given (.packet [0x30, 0x80])).pending = .packet [0x30, 0x80] :: [] ∧
    step (given (.packet [0x30, 0x80])) = .next (idle.answered [0x05]) := ⟨rfl, rfl, by decide, rfl, rfl⟩

theorem test_witness_RaisedStatuses_framer : isPure (.frmCfg 0x02) = false ∧
    exec (.frmCfg 0x02) idle = .next (idle.answered [0x07]) := ⟨rfl, rfl⟩

/-- A state in which the reset input is held. -/
def held : State := { given (.packet [0x40]) with inReset := true }

theorem test_witness_PacketsDuringReset : held.inReset = true ∧ held.pending = .packet [0x40] :: [] := by decide

theorem test_witness_OnlyTheNamedStops : step (given (.packet [])) = .fault .emptyPacket ∧
    step held = .refused .operationDuringReset := ⟨rfl, rfl⟩

theorem test_witness_ResetInput : (given .resetAssert).pending = .resetAssert :: [] ∧
    (given .resetRelease).pending = .resetRelease :: [] := by decide

/-- The longest Plate frame, after noise that fills a chunk to 65535 bytes. -/
theorem test_witness_AfterReset : headOf exc.linkVariant ∉ List.replicate 65274 (0xAA : Byte) ∧
    (List.replicate 255 (0x00 : Byte)).length ≤ maxField exc.linkVariant ∧
    6 + (List.replicate 255 (0x00 : Byte)).length ≤ exc.maxFrame ∧
    (List.replicate 65274 (0xAA : Byte)).length + 6 + (List.replicate 255 (0x00 : Byte)).length ≤ 65535 := by
  refine ⟨fun h => absurd (List.eq_of_mem_replicate h) (by decide), by decide, by decide, ?_⟩
  rw [List.length_replicate, List.length_replicate]

theorem test_witness_AfterReset_port (bs : List Byte) :
    ({ idle with pending := [.resetAssert, .resetRelease, .packet bs] } : State).pending =
      .resetAssert :: .resetRelease :: .packet bs :: [] := rfl

theorem test_witness_PseudoOperations : vFrame.length ≤ 65535 ∧
    answer (exec (.ckSum vFrame 0 6) idle) = some [0x00, 0x0E] := by decide

/-- The last byte of a cursor's buffer and the first position past it; a read of no byte at the end. -/
theorem test_witness_CursorPrimitives : ([0x7B, 0x06] : List Byte)[1]? = some 0x06 ∧ ([0x7B, 0x06] : List Byte).length ≤ 2 ∧
    2 + 0 ≤ ([0x7B, 0x06] : List Byte).length ∧ ([0x7B, 0x06] : List Byte).length < 1 + 2 := by decide

/-- The last range inside V and the first outside; sums of offsets do not wrap. -/
theorem test_witness_CkSum : (1 : U16).toNat + (5 : U16).toNat ≤ vFrame.length ∧
    (6 : U16).toNat + (0 : U16).toNat ≤ vFrame.length ∧ vFrame.length < (7 : U16).toNat + (0 : U16).toNat ∧
    vFrame.length < (0xFFFF : U16).toNat + (0x0001 : U16).toNat := by decide
theorem test_witness_CkSumEnd : (6 : U16).toNat ≤ vFrame.length ∧ vFrame.length < (7 : U16).toNat := by decide
theorem test_witness_CkSumRng : (6 : U16).toNat ≤ (6 : U16).toNat ∧ (6 : U16).toNat ≤ vFrame.length ∧
    (3 : U16).toNat < (4 : U16).toNat ∧ vFrame.length < (7 : U16).toNat := by decide

/-- CK-V1, CK-V2, CK-V3, CK-V5. -/
theorem test_witness_CkVerify : ckHolds exc.instrCkStart.offset vFrame ∧
    ¬ckHolds exc.instrCkStart.offset [0x7B, 0x06, 0x01, 0x04, 0x0C, 0x7D] ∧ ¬ckHolds exc.instrCkStart.offset [0x7B, 0x02] ∧
    ckHolds 0 [0x4E, 0x81, 0x26, 0x00, 0xF5, 0x45] ∧ ¬ckHolds 0 vFrame ∧ 1 < (0x02 : Byte).toNat := by
  unfold ckHolds rangeSum; decide

theorem test_witness_ChecksumDetects : 1 + 3 ≤ vFrame.length ∧ vFrame[1]? ≠ some 0x07 ∧ vFrame[3]? ≠ some 0x05 ∧
    (1 ≤ 1 ∧ 1 < 1 + 3) ∧ (1 ≤ 3 ∧ 3 < 1 + 3) ∧ ((0xFE : Byte).toNat < 255 ∧ 0 < (0x01 : Byte).toNat) ∧
    ([0x01, 0x02] : List Byte).Perm [0x02, 0x01] := by decide

theorem test_witness_EncodedFramesVerify : (List.replicate 249 (0x00 : Byte)).length ≤ 249 ∧
    (List.replicate 255 (0x00 : Byte)).length ≤ 255 := by decide

theorem test_witness_VerifySensitivity : variantOfByte 0x00 = some .instr ∧
    exec (.ckVerify 0x00 vFrame) idle = .next (idle.answered [0x00, 0x01]) ∧
    (vFrame[1]? ≠ some 0x07 ∧ ckStart exc .instr ≤ 1) ∧ (vFrame[4]? ≠ some 0x0C ∧ 4 ≤ vFrame.length - 2) ∧
    (vFrame[0]? ≠ some 0x00 ∧ 0 < ckStart exc .instr) ∧
    (vFrame[5]? ≠ some 0x00 ∧ vFrame.length - 2 < 5 ∧ 5 < vFrame.length) ∧ 6 ≤ vFrame.length :=
  ⟨rfl, rfl, by decide, by decide, by decide, by decide, by decide⟩

theorem test_witness_EncI : (List.replicate 249 (0xAB : Byte)).length ≤ 249 ∧ 249 < (List.replicate 250 (0x00 : Byte)).length := by
  decide

/-- Every clause of DEC.I's rule: I-D8, I-D10, I-D12, I-D13, payloads one byte off the layout and of its length, a wrong checksum,
a wrong tail. -/
theorem test_witness_DecI : ([0x7C] : List Byte).head? ≠ some 0x7B ∧ ([] : List Byte).head? ≠ some 0x7B ∧
    ((0x02 : Byte).toNat ≠ ([] : List Byte).length + 2 ∨ (0x02 : Byte).toNat < 6) ∧
    ((0x06 : Byte).toNat ≠ ([0x01, 0x04, 0x0B] : List Byte).length + 2 ∨ (0x06 : Byte).toNat < 6) ∧
    ¬LayoutFits exc 0x04 (List.replicate 12 (0x00 : Byte)).length ∧ ¬LayoutFits exc 0x04 (List.replicate 14 (0x00 : Byte)).length ∧
    LayoutFits exc 0x04 r04Payload.length ∧ LayoutFits exc 0x05 r04Payload.length ∧ r04Payload.length ≤ 249 ∧
    (0x59 : Byte) ≠ instrCk exc.instrCkStart 0x01 0x04 r04Payload ∧ (0x7E : Byte) ≠ 0x7D := by
  unfold LayoutFits; decide

theorem test_witness_DecIAccepts : exec (.decI 0x01 vFrame) idle =
      .next (idle.answered [0x00, 0x01, 0x04, 0x00, 0x00, 0x02, 0x00, 0x00]) ∧
    (idle.answered [0x00, 0x01, 0x04, 0x00, 0x00, 0x02, 0x00, 0x00]).responses =
      idle.responses ++ [0x00 :: [0x01, 0x04, 0x00, 0x00, 0x02, 0x00, 0x00]] := ⟨rfl, rfl⟩

/-- For the round trip, the truncation and the sensitivity of Instrument frames. -/
theorem test_witness_Instrument : (List.replicate 249 (0x11 : Byte)).length ≤ 249 ∧
    LayoutFits exc 0x01 (List.replicate 249 (0x11 : Byte)).length ∧ LayoutFits exc 0x04 r04Payload.length ∧
    2 < r04Payload.length ∧ r04Payload[2]? ≠ some 0x02 := by
  unfold LayoutFits; decide

theorem test_witness_ChecksumStarts : (mk exc .instr []).cfg.instrCkStart ≠ (mk { exc with instrCkStart := .two } .instr []).cfg.instrCkStart ∧
    LayoutFits (mk { exc with instrCkStart := .two } .instr []).cfg 0x04 r04Payload.length ∧ r04Payload.length ≤ 249 := by
  unfold LayoutFits; decide

theorem test_witness_PAddr : (0x7F : Byte).toNat ≤ 0x7F ∧ 0x80 ≤ (0x80 : Byte).toNat := by decide
theorem test_witness_EncP : (List.replicate 255 (0x5A : Byte)).length ≤ 255 ∧ 255 < (List.replicate 256 (0x00 : Byte)).length := by
  decide

/-- Every clause of DEC.P's rule: P-D12, P-D15, addresses 0x7F and 0x80, P-D13, P-D2, P-D3, P-D5, and codes in and outside
PLATE_MEAS_CODES. -/
theorem test_witness_DecP : ([0x4E] : List Byte).head? ≠ some 0x4F ∧ ([] : List Byte).head? ≠ some 0x4F ∧
    (0x7F : Byte).toNat < 0x80 ∧ 0x80 ≤ (0x80 : Byte).toNat ∧ ([0x01] : List Byte).length < 2 ∧
    (0x02 : Byte).toNat + 6 ≠ ([0x04, 0xD2, 0xCE] : List Byte).length + 4 ∧
    (0xCE : Byte) ≠ plateCk 0x4F 0x81 0x26 [0x04, 0xD3] ∧ (0x00 : Byte) ≠ exc.plateRxTail ∧
    (0x26 : Byte) ∈ exc.plateMeasCodes ∧ ([0x04] : List Byte).length ≠ 2 ∧ ([0x04, 0xD2, 0x00] : List Byte).length ≠ 2 ∧
    (0x10 : Byte) ∉ exc.plateMeasCodes ∧ (List.replicate 255 (0x00 : Byte)).length ≤ 255 := by decide

/-- For the frames DEC.P accepts, their truncation and their sensitivity. -/
theorem test_witness_DecPAccepts : exec (.decP pgFrame) idle =
      .next (idle.answered (0x00 :: [0x81, 0x26, 0x00, 0x02, 0x04, 0xD2, 0x01, 0x01, 0x04, 0xD2, 0x00, 0x64])) ∧
    (idle.answered (0x00 :: [0x81])).responses = idle.responses ++ [0x00 :: [0x81]] ∧
    (4 ≤ 4 ∧ 4 < pgFrame.length - 2 ∧ pgFrame[4]? ≠ some 0x05) ∧ (5 < pgFrame.length - 2 ∧ pgFrame[5]? ≠ some 0xD3) :=
  ⟨rfl, rfl, by decide, by decide⟩

/-- P-R2, P-R1: an inbound twin that is accepted and one that is UNKNOWN. -/
theorem test_witness_PlateRoundTrip : ([0xFF, 0xFF, 0xFF] : List Byte).length ≤ 255 ∧ 0x80 ≤ (0xFF : Byte).toNat ∧
    ([0x4E, 0xFF, 0xFF, 0x03, 0xFF, 0xFF, 0xFF, 0x4C, 0x45] : List Byte)[7]? = some 0x4C ∧
    ((0xFF : Byte) ∈ exc.plateMeasCodes → ([0xFF, 0xFF, 0xFF] : List Byte).length = 2) ∧
    ((0x26 : Byte) ∈ exc.plateMeasCodes ∧ ([] : List Byte).length ≠ 2) := by decide

theorem test_witness_FrmCfg : 1 < (0x02 : Byte).toNat ∧ 1 < (0xFF : Byte).toNat := by decide

/-- A loop that runs: V, fed byte by byte, is one FRAME. -/
theorem test_witness_FrmFeed : feedBytes exc .instr vFrame [] = ([.frame vFrame], []) := by decide

theorem test_witness_ValidFrame : idle.frmBuf = [] ∧ headOf .instr ∉ ([0xAA, 0x55] : List Byte) ∧
    (List.replicate 249 (0x00 : Byte)).length ≤ maxField .instr ∧
    6 + (List.replicate 249 (0x00 : Byte)).length ≤ ({ exc with maxFrame := 255 } : Config).maxFrame ∧
    (List.replicate 255 (0x00 : Byte)).length ≤ maxField .plate ∧ 6 + (List.replicate 255 (0x00 : Byte)).length ≤ exc.maxFrame := by
  decide

/-- FR-5. -/
theorem test_witness_BadChecksum : idle.frmBuf = [] ∧ ([] : List Byte).length ≤ maxField .instr ∧
    6 + ([] : List Byte).length ≤ exc.maxFrame ∧ (0x0C : Byte) ≠ rxCk exc .instr 0x01 0x04 [] := by decide

/-- FR-5, FR-11, FR-6, FP-7: events of each kind, and of each reason in each mode, occur. -/
theorem test_witness_FeedEvents :
    feedBytes exc .instr [0x7B, 0x06, 0x01, 0x04, 0x0C, 0x7D] [] = ([.ckErr [0x7B, 0x06, 0x01, 0x04, 0x0C, 0x7D]], []) ∧
    feedBytes exc .instr [0x7B, 0x00] [] = ([.frameErr .badLength], []) ∧
    feedBytes exc .instr [0x7B, 0x06, 0x01, 0x04, 0x0B, 0x00] [] = ([.frameErr .badTail], []) ∧
    feedBytes { exc with earlyReject := false, maxFrame := 6 } .instr [0x7B, 0x00, 0x00, 0x00, 0x00, 0x00, 0x00] [] =
      ([.frameErr .oversize], []) ∧
    feedBytes { exc with maxFrame := 10 } .plate [0x4F, 0x81, 0x26, 0x05] [] = ([.frameErr .oversize], []) := by decide

theorem test_witness_Noise : idle.frmBuf = [] ∧ headOf idle.frmVariant ∉ ([0x4F, 0xAA] : List Byte) := by decide

/-- Lengths 5 below 6, 101 just above a MAX_FRAME of 100, a length byte that is a head byte, FP-7's 11 above 10, and an address byte that is
a head byte. -/
theorem test_witness_IllegalLength : idle.frmBuf = [] ∧ idle.cfg.earlyReject = true ∧ idle.frmVariant = .instr ∧
    (0x05 : Byte).toNat < 6 ∧
    (6 ≤ (0x65 : Byte).toNat ∧ ({ exc with maxFrame := 100 } : Config).maxFrame < (0x65 : Byte).toNat ∧ (0x65 : Byte) ≠ 0x7B) ∧
    (6 ≤ (0x7B : Byte).toNat ∧ ({ exc with maxFrame := 122 } : Config).maxFrame < (0x7B : Byte).toNat) ∧
    (mk { exc with maxFrame := 10 } .plate []).frmVariant = .plate ∧
    ({ exc with maxFrame := 10 } : Config).maxFrame < (0x05 : Byte).toNat + 6 ∧ (0x4F : Byte) ∉ ([0x81, 0x26, 0x05] : List Byte) := by
  decide

/-- FR-6, with V behind the candidate; and V inside a candidate, two bytes behind it. -/
theorem test_witness_WrongTail : idle.frmBuf = [] ∧ idle.cfg.earlyReject = true ∧ vFrame.length ≤ maxField .instr ∧
    6 + vFrame.length ≤ exc.maxFrame ∧ (0x00 : Byte) ≠ tailOf exc .instr ∧
    vFrame = rxFrame .instr 0x01 0x04 [] (rxCk exc .instr 0x01 0x04 []) (tailOf exc .instr) ∧
    (rxFrame .instr 0x01 0x04 [] 0x0B 0x00).drop 1 ++ vFrame = [0x06, 0x01, 0x04, 0x0B, 0x00] ++ vFrame ++ [] ∧
    headOf .instr ∉ ([0x06, 0x01, 0x04, 0x0B, 0x00] : List Byte) ∧
    (rxFrame .instr 0x01 0x04 vFrame 0x0B 0x00).drop 1 ++ [] = [0x0C, 0x01, 0x04] ++ vFrame ++ [0x0B, 0x00] ∧
    headOf .instr ∉ ([0x0C, 0x01, 0x04] : List Byte) := by decide

/-- With MAX_FRAME 6: candidates of six bytes and of seven, impossible for a length of 5, a length of 7 (either variant), and a wrong
tail. -/
theorem test_witness_LiteralMode :
    (mk { exc with earlyReject := false, maxFrame := 6 } .instr []).frmBuf = [] ∧
    (mk { exc with earlyReject := false, maxFrame := 6 } .instr []).cfg.earlyReject = false ∧
    (∀ buf ∈ ([[0x7B, 0x05, 0x00, 0x00, 0x00, 0x00], [0x7B, 0x05, 0x00, 0x00, 0x00, 0x00, 0x00], [0x7B, 0x07],
        [0x7B, 0x06, 0x01, 0x04, 0x0B, 0x00], [0x7B, 0x06, 0x01, 0x04, 0x0B, 0x00, 0x7D]] : List (List Byte)),
      buf.head? = some (headOf .instr) ∧ ImpossibleCandidate { exc with earlyReject := false, maxFrame := 6 } .instr buf) ∧
    ImpossibleCandidate { exc with earlyReject := false, maxFrame := 6 } .plate [0x4F, 0x80, 0x10, 0x01] ∧
    (0x7B : Byte) ∉ ([0x05, 0x00, 0x00, 0x00, 0x00, 0x00] : List Byte) := by
  unfold ImpossibleCandidate; decide

theorem test_witness_FalseHead : idle.frmBuf = [] ∧ idle.frmVariant = .instr ∧ 123 ≤ ({ exc with maxFrame := 123 } : Config).maxFrame ∧
    6 + (List.replicate 115 (0x00 : Byte)).length ≤ 121 := by decide

/-- A FRAME event of each variant whose frame meets what its decoder asks for. -/
theorem test_witness_FramerFramesDecode :
    feedBytes exc .instr r04 [] = ([.frame r04], []) ∧ LayoutFits exc 0x04 (r04.length - 6) ∧
    feedBytes exc .plate pgFrame [] = ([.frame pgFrame], []) ∧ 0x80 ≤ (pgFrame.getD 1 0).toNat ∧
    (pgFrame.getD 2 0 ∈ exc.plateMeasCodes → pgFrame.length = 8) := by
  unfold LayoutFits; decide

/-- A state in mid-candidate has the invariant, and a step goes on from it. -/
theorem test_witness_EveryStepKeeps : State.inv { mk exc .instr [0x7B, 0x07, 0x01] with pending := [.packet [0x40]] } ∧
    step { mk exc .instr [0x7B, 0x07, 0x01] with pending := [.packet [0x40]] } = .next { idle with responses := [[0x00]] } := by
  refine ⟨?_, rfl⟩
  unfold State.inv State.bufInv; decide

theorem test_witness_Pure : isPure (.pAddr 0x01) = true ∧ isPure (.frmFeed [0x7B]) = false ∧ idle.cfg = exc := by decide

theorem test_witness_ConfigurationIsReadOnly : step (given (.packet [0x40])) = .next { idle with responses := [[0x00]] } := rfl

/-- Each way to change FRM_VARIANT, and FRM_BUF. -/
theorem test_witness_WhoWrites :
    seen (step (given .resetAssert)) = some (none, .plate, []) ∧ seen (step (given (.packet [0x41, 0x01]))) = some (some [0x00], .plate, []) ∧
    seen (step { mk exc .plate [] with pending := [.packet [0x41, 0x00]] }) = some (some [0x00], .instr, []) ∧
    seen (step (given (.packet [0x42, 0x00, 0x01, 0x7B]))) = some (some [0x00, 0x00, 0x00, 0x00, 0x00], .instr, [0x7B]) := by decide

end Sys2Proof.Tests
end

section
/-! PROOFS. Encodings (30_encoding.md): illegal encodings (R59), malformed packets (R53) and the pseudo-operations (R73). -/

namespace Sys2Proof

/-! ### Reading the operand fields of a packet (R51, R53) -/

/-- `read` takes the operand bytes of opcode `o`, laid out as `ks`, as R53 says: bytes of exactly the layout's length are an operation
of that opcode, any others are none. -/
def ReadsLayout (o : Opcode) (ks : List OperandKind) (read : List Byte → Option Instr) : Prop :=
  ∀ bs, (bs.length = operandsLength ks bs → ∃ i, i.opcode = o ∧ read bs = some i) ∧
    (bs.length ≠ operandsLength ks bs → read bs = none)

theorem ReadsLayout.takeEnd (i : Instr) : ReadsLayout i.opcode [] (takeEnd i) := by
  intro bs
  cases bs with
  | nil => exact ⟨fun _ => ⟨i, rfl, rfl⟩, fun h => absurd rfl h⟩
  | cons b bs => exact ⟨fun h => absurd h (Nat.succ_ne_zero _), fun _ => rfl⟩

/-- What reading a SEQ answers when its count runs past the packet's end. -/
theorem takeSeq_of_short {hi lo : Byte} {bs : List Byte} (h : bs.length < (u16OfBytes hi lo).toNat) :
    takeSeq (hi :: lo :: bs) = none := by
  simp [takeSeq, takeU16, Nat.not_le.2 h]

/-- What reading a SEQ answers when the bytes it counts are there. -/
theorem takeSeq_of_enough {hi lo : Byte} {bs : List Byte} (h : (u16OfBytes hi lo).toNat ≤ bs.length) :
    takeSeq (hi :: lo :: bs) = some (bs.take (u16OfBytes hi lo).toNat, bs.drop (u16OfBytes hi lo).toNat) := by
  simp [takeSeq, takeU16, h]

/-- The layout's length from a SEQ on, when its two count bytes are there. -/
theorem operandsLength_seq_cons (ks : List OperandKind) (hi lo : Byte) (bs : List Byte) :
    operandsLength (.seq :: ks) (hi :: lo :: bs) =
      2 + (u16OfBytes hi lo).toNat + operandsLength ks (bs.drop (u16OfBytes hi lo).toNat) := by
  have hd : ∀ n, (hi :: lo :: bs).drop (2 + n) = bs.drop n := fun n => by rw [Nat.add_comm]; rfl
  simp [operandsLength, hd]

/-- A SEQ needs at least its two count bytes. -/
theorem two_le_operandsLength_seq (ks : List OperandKind) (bs : List Byte) : 2 ≤ operandsLength (.seq :: ks) bs := by
  rw [operandsLength]; omega

section
variable {o : Opcode} {ks : List OperandKind}

theorem ReadsLayout.takeU8 {read : Byte → List Byte → Option Instr} (h : ∀ b, ReadsLayout o ks (read b)) :
    ReadsLayout o (.u8 :: ks) fun bs => takeU8 bs >>= fun (b, rest) => read b rest := by
  intro bs
  match bs with
  | [] => exact ⟨fun hl => by simp only [operandsLength, List.length_nil] at hl; omega, fun _ => rfl⟩
  | b :: rest =>
    have hl : (b :: rest).length = operandsLength (.u8 :: ks) (b :: rest) ↔ rest.length = operandsLength ks rest := by
      simp only [operandsLength, List.length_cons, List.drop_succ_cons, List.drop_zero]; omega
    rw [ne_eq, hl]
    exact h b rest

theorem ReadsLayout.takeU16 {read : U16 → List Byte → Option Instr} (h : ∀ v, ReadsLayout o ks (read v)) :
    ReadsLayout o (.u16 :: ks) fun bs => takeU16 bs >>= fun (v, rest) => read v rest := by
  intro bs
  match bs with
  | [] => exact ⟨fun hl => by simp only [operandsLength, List.length_nil] at hl; omega, fun _ => rfl⟩
  | [_] => exact ⟨fun hl => by simp only [operandsLength, List.length_singleton] at hl; omega, fun _ => rfl⟩
  | hi :: lo :: rest =>
    have hl : (hi :: lo :: rest).length = operandsLength (.u16 :: ks) (hi :: lo :: rest) ↔
        rest.length = operandsLength ks rest := by
      simp only [operandsLength, List.length_cons, List.drop_succ_cons, List.drop_zero]; omega
    rw [ne_eq, hl]
    exact h (u16OfBytes hi lo) rest

theorem ReadsLayout.takeSeq {read : List Byte → List Byte → Option Instr} (h : ∀ b, ReadsLayout o ks (read b)) :
    ReadsLayout o (.seq :: ks) fun bs => takeSeq bs >>= fun (b, rest) => read b rest := by
  intro bs
  have h2 := two_le_operandsLength_seq ks bs
  match bs with
  | [] => exact ⟨fun hl => by simp only [List.length_nil] at hl; omega, fun _ => rfl⟩
  | [_] => exact ⟨fun hl => by simp only [List.length_singleton] at hl; omega, fun _ => rfl⟩
  | hi :: lo :: tl =>
    rw [operandsLength_seq_cons, List.length_cons, List.length_cons]
    by_cases hn : (u16OfBytes hi lo).toNat ≤ tl.length
    · have hl : tl.length + 1 + 1 = 2 + (u16OfBytes hi lo).toNat + operandsLength ks (tl.drop (u16OfBytes hi lo).toNat) ↔
          (tl.drop (u16OfBytes hi lo).toNat).length = operandsLength ks (tl.drop (u16OfBytes hi lo).toNat) := by
        rw [List.length_drop]; omega
      rw [ne_eq, hl]
      simp only [takeSeq_of_enough hn]
      exact h _ _
    · simp only [takeSeq_of_short (Nat.lt_of_not_le hn)]
      exact ⟨fun hl => by omega, fun _ => rfl⟩

end

/-- The decoder reads the operands of every opcode by the layout of the opcode map (R53, R54). -/
theorem decodeOperands_readsLayout (o : Opcode) : ReadsLayout o o.operands (decodeOperands o) := by
  cases o with
  | ckSum => exact .takeSeq fun b => .takeU16 fun s => .takeU16 fun n => .takeEnd (.ckSum b s n)
  | ckSumEnd => exact .takeSeq fun b => .takeU16 fun s => .takeEnd (.ckSumEnd b s)
  | ckSumRng => exact .takeSeq fun b => .takeU16 fun s => .takeU16 fun e => .takeEnd (.ckSumRng b s e)
  | ckVerify => exact .takeU8 fun v => .takeSeq fun f => .takeEnd (.ckVerify v f)
  | encI => exact .takeU8 fun a => .takeU8 fun c => .takeSeq fun p => .takeEnd (.encI a c p)
  | decI => exact .takeU8 fun pcc => .takeSeq fun f => .takeEnd (.decI pcc f)
  | pAddr => exact .takeU8 fun i => .takeEnd (.pAddr i)
  | encP => exact .takeU8 fun a => .takeU8 fun c => .takeSeq fun p => .takeEnd (.encP a c p)
  | decP => exact .takeSeq fun f => .takeEnd (.decP f)
  | frmReset => exact .takeEnd .frmReset
  | frmCfg => exact .takeU8 fun v => .takeEnd (.frmCfg v)
  | frmFeed => exact .takeSeq fun c => .takeEnd (.frmFeed c)

/-! ### The decoder, case by case -/

theorem decode_of_ofByte_none {opc : Byte} (h : Opcode.ofByte opc = none) (bs : List Byte) :
    decode (opc :: bs) = .error (.undefinedOpcode opc) := by
  simp [decode, h]

theorem decode_byte_of_some {o : Opcode} {bs : List Byte} {i : Instr} (h : decodeOperands o bs = some i) :
    decode (o.byte :: bs) = .ok i := by
  simp [decode, h]

theorem decode_byte_of_none {o : Opcode} {bs : List Byte} (h : decodeOperands o bs = none) :
    decode (o.byte :: bs) = .error (.malformed o) := by
  simp [decode, h]

/-- A packet has its layout's length when its operand bytes have theirs. -/
theorem Opcode.length_eq_packetLength_iff (o : Opcode) (bs : List Byte) :
    (o.byte :: bs).length = o.packetLength bs ↔ bs.length = operandsLength o.operands bs := by
  rw [Opcode.packetLength, List.length_cons]; omega

theorem decode_of_packetLength {o : Opcode} {bs : List Byte} (h : (o.byte :: bs).length = o.packetLength bs) :
    ∃ i, i.opcode = o ∧ decode (o.byte :: bs) = .ok i := by
  obtain ⟨i, ho, hi⟩ := (decodeOperands_readsLayout o bs).1 ((o.length_eq_packetLength_iff bs).1 h)
  exact ⟨i, ho, decode_byte_of_some hi⟩

theorem decode_of_not_packetLength {o : Opcode} {bs : List Byte} (h : (o.byte :: bs).length ≠ o.packetLength bs) :
    decode (o.byte :: bs) = .error (.malformed o) :=
  decode_byte_of_none ((decodeOperands_readsLayout o bs).2 (mt (o.length_eq_packetLength_iff bs).2 h))

end Sys2Proof

namespace Sys2Proof.Machine

open Sys2Proof

/-! ### A step on a packet that carries no operation (R53, R59, R164) -/

theorem State.respond_eq_answered (s : State) (r : Response) : s.respond r = s.answered (encodeResponse r) := rfl

theorem State.popInput_eq {s : State} {x : PortInput} {rest : List PortInput} (h : s.pending = x :: rest) :
    s.popInput = { s with pending := rest } := by
  simp [State.popInput, h]

/-- The status the port answers when a packet carries no operation; none for the packet of no byte. -/
def portStatus : DecodeError → Option ErrorStatus
  | .noOpcode => none
  | .undefinedOpcode _ => some .illegalOp
  | .malformed _ => some .badPacket

theorem State.fetch_of_decode_error {s : State} {p : List Byte} {rest : List PortInput} {e : DecodeError} {st : ErrorStatus}
    (hr : s.inReset = false) (hp : s.pending = .packet p :: rest) (hd : decode p = .error e) (he : portStatus e = some st) :
    s.fetch = .done (s.popInput.respond (.raised st)) := by
  cases e with
  | noOpcode => cases he
  | undefinedOpcode opc => cases he; simp [State.fetch, hp, hr, hd]
  | malformed o => cases he; simp [State.fetch, hp, hr, hd]

/-- A packet that carries no operation is taken and answered with its status alone; nothing else changes. -/
theorem step_of_decode_error {s : State} {p : List Byte} {rest : List PortInput} {e : DecodeError} {st : ErrorStatus}
    (hr : s.inReset = false) (hp : s.pending = .packet p :: rest) (hd : decode p = .error e) (he : portStatus e = some st) :
    step s = .next (State.answered { s with pending := rest } [st.code]) := by
  rw [step, State.fetch_of_decode_error hr hp hd he, State.popInput_eq hp, State.respond_eq_answered, encodeResponse]

/-! ### Illegal encodings (R59) -/

/-- No opcode of the map is in R59(a)'s list. -/
theorem not_undefinedOpcode_byte (o : Opcode) : ¬UndefinedOpcode o.byte := by
  unfold UndefinedOpcode
  cases o <;> decide

theorem UndefinedOpcode.ofByte_eq_none {opc : Byte} (h : UndefinedOpcode opc) : Opcode.ofByte opc = none := by
  cases ho : Opcode.ofByte opc with
  | none => rfl
  | some o => exact absurd (Opcode.byte_of_ofByte ho ▸ h) (not_undefinedOpcode_byte o)

/-- The byte of a reserved variant names none. -/
theorem variantOfByte_reserved {v : Byte} (h : 1 < v.toNat) : variantOfByte v = none := by
  have h0 : v ≠ 0x00 := by rintro rfl; exact absurd h (by decide)
  have h1 : v ≠ 0x01 := by rintro rfl; exact absurd h (by decide)
  simp only [variantOfByte, h0, h1, if_false]

theorem exec_ckVerify_reserved (s : State) {v : Byte} (f : List Byte) (h : variantOfByte v = none) :
    exec (.ckVerify v f) s = .next (s.answered [0x07]) := by
  simp only [exec, execCkVerify, h]
  rfl

theorem exec_frmCfg_reserved (s : State) {v : Byte} (h : variantOfByte v = none) :
    exec (.frmCfg v) s = .next (s.answered [0x07]) := by
  simp only [exec, execFrmCfg, h]
  rfl

/-- Settles O4: an opcode of R59(a)'s list is not in the opcode map, and a reserved variant byte names no variant. -/
theorem illegalEncodingsAnswerIllegalOp : Obligations.IllegalEncodingsAnswerIllegalOp := by
  unfold Obligations.IllegalEncodingsAnswerIllegalOp
  constructor
  · intro s opc bs rest hu hr hp
    exact step_of_decode_error hr hp (decode_of_ofByte_none hu.ofByte_eq_none bs) rfl
  · intro s v f hv
    have hn := variantOfByte_reserved hv
    exact ⟨exec_ckVerify_reserved s f hn, exec_frmCfg_reserved s hn⟩

/-! ### Malformed packets (R53) -/

/-- Settles O5: the decoder reads each opcode's operands by its layout, so the length alone decides. -/
theorem malformedPacketsAnswerBadPacket : Obligations.MalformedPacketsAnswerBadPacket := by
  unfold Obligations.MalformedPacketsAnswerBadPacket
  intro o bs
  refine ⟨decode_of_packetLength, fun hl s rest hr hp => ?_⟩
  exact step_of_decode_error hr hp (decode_of_not_packetLength hl) rfl

/-! ### Pseudo-operations (R73) -/

/-- PADDR in its range answers the socket's address (R116). -/
theorem exec_pAddr_of_le {i : Byte} (h : i.toNat ≤ 0x7F) (s : State) :
    exec (.pAddr i) s = .next (s.answered [0x00, i + 0x80]) := by
  rw [exec, execPAddr, require_of_holds h]
  rfl

/-- PADDR out of its range answers OUT_OF_RANGE (R116). -/
theorem exec_pAddr_of_not_le {i : Byte} (h : ¬i.toNat ≤ 0x7F) (s : State) :
    exec (.pAddr i) s = .next (s.answered [0x05]) := by
  rw [exec, execPAddr, require_of_fails h]
  rfl

/-- CK.SUM of a range inside the sequence answers its sum (R88). -/
theorem exec_ckSum_of_le {b : List Byte} {start n : U16} (h : start.toNat + n.toNat ≤ b.length) (s : State) :
    exec (.ckSum b start n) s = .next (s.answered [0x00, sum8 b start.toNat n.toNat]) := by
  rw [exec, execCkSum, require_of_holds h]
  rfl

/-- The sum over the whole sequence (R85). -/
theorem sum8_whole (b : List Byte) : sum8 b 0 b.length = .ofNat 8 (b.map BitVec.toNat).sum := by
  rw [sum8, List.drop_zero, List.take_length]

theorem expand_encPSock_of_le {i : Byte} (h : i.toNat ≤ 0x7F) (c : Byte) (p : List Byte) :
    (PseudoOp.encPSock i c p).expand = [.pAddr i, .encP (i + 0x80) c p] := if_pos h

theorem expand_encPSock_of_not_le {i : Byte} (h : ¬i.toNat ≤ 0x7F) (c : Byte) (p : List Byte) :
    (PseudoOp.encPSock i c p).expand = [.pAddr i] := if_neg h

/-- Settles O15: PADDR's range decides ENC.P.SOCK, and a length of at most 65535 is its own `u16`. -/
theorem pseudoOperationsExpand : Obligations.PseudoOperationsExpand := by
  unfold Obligations.PseudoOperationsExpand
  refine ⟨fun i c p s => ?_, fun _ => rfl, fun b s hb => ?_⟩
  · by_cases hi : i.toNat ≤ 0x7F
    · exact .inl ⟨i + 0x80, exec_pAddr_of_le hi s, expand_encPSock_of_le hi c p⟩
    · exact .inr ⟨0x05, by decide, exec_pAddr_of_not_le hi s, expand_encPSock_of_not_le hi c p⟩
  · have hn : (BitVec.ofNat 16 b.length).toNat = b.length := by rw [BitVec.toNat_ofNat]; omega
    have hle : (0 : U16).toNat + (BitVec.ofNat 16 b.length).toNat ≤ b.length := by rw [hn]; exact (Nat.zero_add _).le
    refine ⟨.ofNat 16 b.length, hn, rfl, ?_⟩
    rw [exec_ckSum_of_le hle s, hn]
    exact congrArg (fun k => Host.Outcome.next (s.answered [0x00, k])) (sum8_whole b)

end Sys2Proof.Machine
end

section
/-! PROOFS. The Byte Cursor (40_cursor.md): its primitives in the mode they belong to (R75 to R80). -/

namespace Sys2Proof.Machine

open Sys2Proof

/-! ### Reading from a parse cursor (R78, R79) -/

variable {buf : List Byte} {rd : Nat}

theorem Cursor.get_of_getElem? {b : Byte} (h : buf[rd]? = some b) :
    (Cursor.mk buf rd .parse).get = .ok (b, ⟨buf, rd + 1, .parse⟩) := by
  obtain ⟨b', hb', hget⟩ | ⟨hend, -⟩ := Cursor.get_cases buf rd
  · obtain rfl : b' = b := Option.some.inj (hb'.symm.trans h)
    exact hget
  · rw [List.getElem?_eq_none hend] at h
    nomatch h

theorem Cursor.get_of_length_le (h : buf.length ≤ rd) :
    (Cursor.mk buf rd .parse).get = .error .outOfRange := by
  obtain ⟨b, hb, -⟩ | ⟨-, hget⟩ := Cursor.get_cases buf rd
  · rw [List.getElem?_eq_none h] at hb
    nomatch hb
  · exact hget

theorem Cursor.getN_of_le {n : Nat} (h : rd + n ≤ buf.length) :
    (Cursor.mk buf rd .parse).getN n = .ok ((buf.drop rd).take n, ⟨buf, rd + n, .parse⟩) := by
  obtain ⟨-, hget⟩ | ⟨hlt, -⟩ := Cursor.getN_cases buf rd n
  · exact hget
  · exact absurd h hlt.not_ge

theorem Cursor.getN_of_lt {n : Nat} (h : buf.length < rd + n) :
    (Cursor.mk buf rd .parse).getN n = .error .outOfRange := by
  obtain ⟨hle, -⟩ | ⟨-, hget⟩ := Cursor.getN_cases buf rd n
  · exact absurd hle h.not_ge
  · exact hget

/-! ### The primitives together -/

/-- Settles O16: whether enough bytes remain selects the case of `Cursor.get_cases` and of `Cursor.getN_cases`; creation, appending
and `CurBytes` have no case to select. -/
theorem cursorPrimitivesRule : Obligations.CursorPrimitivesRule := by
  unfold Obligations.CursorPrimitivesRule
  refine ⟨⟨rfl, fun _ => rfl⟩, ?put, ?putN, ?get, ?getN, fun _ _ _ => rfl⟩
  case put => exact Cursor.put_assembly
  case putN => exact fun buf rd b => Cursor.putN_assembly buf b rd
  case get => exact fun _ _ => ⟨fun _ => Cursor.get_of_getElem?, Cursor.get_of_length_le⟩
  case getN => exact fun _ _ _ => ⟨Cursor.getN_of_le, Cursor.getN_of_lt⟩

end Sys2Proof.Machine
end

section
/-! PROOFS. The checksum operations (41_checksum.md): the range sums (R88, R90, R92) and the verification (R94). -/

namespace Sys2Proof.Machine

open Sys2Proof

/-! ### The port and the answer of an operation with one requirement (R13, R53, R55) -/

/-- Every opcode of the map answers a packet of the wrong length as R53 says. -/
theorem portRule_byte (o : Opcode) : PortRule o o.byte :=
  ⟨rfl, fun _ _ _ hr hp hl => step_of_decode_error hr hp (decode_of_not_packetLength hl) rfl⟩

section
variable {p : Prop} [Decidable p]

theorem State.finish_require_of_holds (h : p) (s : State) (e : ErrorStatus) (r : Result) :
    s.finish (do require p e; return r) = .next (s.answered (0x00 :: encodeResult r)) := by
  rw [require_of_holds h]
  rfl

theorem State.finish_require_of_fails (h : ¬p) (s : State) (e : ErrorStatus) (r : Result) :
    s.finish (do require p e; return r) = .next (s.answered [e.code]) := by
  rw [require_of_fails h]
  rfl

end

/-! ### The sum of a range (R85) -/

/-- The range grows by one byte at its end; past the end of the sequence it grows by nothing. -/
theorem rangeSum_eq_sum_map (b : List Byte) (start n : Nat) :
    rangeSum b start n = (((b.drop start).take n).map BitVec.toNat).sum := by
  induction n with
  | zero => rfl
  | succ n ih =>
    have hlast : (b.getD (start + n) 0).toNat = (((b.drop start)[n]?).toList.map BitVec.toNat).sum := by
      rw [List.getElem?_drop, List.getD_eq_getElem?_getD]
      cases b[start + n]? with
      | none => rfl
      | some x => exact List.sum_singleton.symm
    calc rangeSum b start (n + 1)
        = rangeSum b start n + (b.getD (start + n) 0).toNat := Finset.sum_range_succ _ n
      _ = (((b.drop start).take (n + 1)).map BitVec.toNat).sum := by
          rw [ih, hlast, List.take_add_one, List.map_append, List.sum_append]

/-- `Sum8` is the sum on unbounded integers, mod 256 (R85). -/
theorem sum8_eq_ofNat_rangeSum (b : List Byte) (start n : Nat) :
    sum8 b start n = .ofNat 8 (rangeSum b start n) := by
  rw [sum8, rangeSum_eq_sum_map]

/-- A byte is the low byte of a sum. -/
theorem eq_ofNat_byte_iff (k : Byte) (x : Nat) : k = .ofNat 8 x ↔ x % 256 = k.toNat := by
  rw [← BitVec.toNat_inj, BitVec.toNat_ofNat]
  exact eq_comm

/-! ### CK.SUM (R88) -/

/-- CK.SUM of a range past the end of the sequence is OUT_OF_RANGE (R87, R88). -/
theorem exec_ckSum_of_lt {b : List Byte} {start n : U16} (h : b.length < start.toNat + n.toNat) (s : State) :
    exec (.ckSum b start n) s = .next (s.answered [0x05]) :=
  State.finish_require_of_fails h.not_ge s _ _

/-- Settles O18: the requirement of CK.SUM selects the clause, and its sum is that of R85. -/
theorem ckSumRule : Obligations.CkSumRule := by
  unfold Obligations.CkSumRule
  refine ⟨portRule_byte .ckSum, fun b start n s => ⟨fun h => ?_, fun h => exec_ckSum_of_lt h s⟩⟩
  rw [exec_ckSum_of_le h, sum8_eq_ofNat_rangeSum]

/-! ### CK.SUMEND (R90) -/

/-- CK.SUMEND from an offset of the sequence, its end included, answers the sum of what follows (R89, R90). -/
theorem exec_ckSumEnd_of_le {b : List Byte} {start : U16} (h : start.toNat ≤ b.length) (s : State) :
    exec (.ckSumEnd b start) s = .next (s.answered [0x00, ckGen b start.toNat]) :=
  State.finish_require_of_holds h s _ _

/-- CK.SUMEND from past the end is OUT_OF_RANGE (R87, R90). -/
theorem exec_ckSumEnd_of_lt {b : List Byte} {start : U16} (h : b.length < start.toNat) (s : State) :
    exec (.ckSumEnd b start) s = .next (s.answered [0x05]) :=
  State.finish_require_of_fails h.not_ge s _ _

/-- Settles O19: the requirement of CK.SUMEND selects the clause, and the generator is R85's sum to the end. -/
theorem ckSumEndRule : Obligations.CkSumEndRule := by
  unfold Obligations.CkSumEndRule
  refine ⟨portRule_byte .ckSumEnd, fun b start s => ⟨fun h => ?_, fun h => exec_ckSumEnd_of_lt h s⟩⟩
  rw [exec_ckSumEnd_of_le h, ckGen, sum8_eq_ofNat_rangeSum]

/-! ### CK.SUMRNG (R92) -/

/-- CK.SUMRNG of a range inside the sequence answers its sum (R92). -/
theorem exec_ckSumRng_of_le {b : List Byte} {start stop : U16} (hs : start.toNat ≤ stop.toNat)
    (he : stop.toNat ≤ b.length) (s : State) :
    exec (.ckSumRng b start stop) s = .next (s.answered [0x00, sum8 b start.toNat (stop.toNat - start.toNat)]) :=
  State.finish_require_of_holds ⟨hs, he⟩ s _ _

/-- CK.SUMRNG of a reversed range, or of one past the end, is OUT_OF_RANGE (R87, R92). -/
theorem exec_ckSumRng_of_lt {b : List Byte} {start stop : U16} (h : stop.toNat < start.toNat ∨ b.length < stop.toNat)
    (s : State) : exec (.ckSumRng b start stop) s = .next (s.answered [0x05]) := by
  have hfails : ¬(start.toNat ≤ stop.toNat ∧ stop.toNat ≤ b.length) := by omega
  exact State.finish_require_of_fails hfails s _ _

/-- Settles O20: the requirement of CK.SUMRNG selects the clause, and its sum is that of R85. -/
theorem ckSumRngRule : Obligations.CkSumRngRule := by
  unfold Obligations.CkSumRngRule
  refine ⟨portRule_byte .ckSumRng, fun b start stop s => ⟨fun hs he => ?_, fun h => exec_ckSumRng_of_lt h s⟩⟩
  rw [exec_ckSumRng_of_le hs he, sum8_eq_ofNat_rangeSum]

/-! ### CK.VERIFY (R91, R94) -/

/-- The model's `CkOk` is the checksum predicate of R91. -/
theorem ckOk_eq_true_iff (cfg : Config) (v : Variant) (f : List Byte) :
    ckOk cfg v f = true ↔ ckHolds (ckStart cfg v) f := by
  rw [ckOk, Bool.and_eq_true, decide_eq_true_iff, decide_eq_true_iff, ckHolds]
  refine and_congr_right fun hlen => ?_
  have hck : f[f.length - 2]? = some (f.getD (f.length - 2) 0) := by
    rw [List.getElem?_eq_getElem (by omega), List.getD_eq_getElem _ _ (by omega)]
  rw [hck, Option.some.injEq, sum8_eq_ofNat_rangeSum]
  exact eq_ofNat_byte_iff _ _

section
variable {v : Byte} {w : Variant}

/-- CK.VERIFY of a variant that is not reserved answers its verdict. -/
theorem exec_ckVerify_of_variant (hv : variantOfByte v = some w) (f : List Byte) (s : State) :
    exec (.ckVerify v f) s = .next (s.answered [0x00, if ckOk s.cfg w f then 0x01 else 0x00]) := by
  rw [exec, execCkVerify, hv]
  rfl

theorem exec_ckVerify_of_holds (hv : variantOfByte v = some w) {f : List Byte} {s : State}
    (h : ckHolds (ckStart s.cfg w) f) : exec (.ckVerify v f) s = .next (s.answered [0x00, 0x01]) := by
  rw [exec_ckVerify_of_variant hv, if_pos ((ckOk_eq_true_iff ..).2 h)]

theorem exec_ckVerify_of_fails (hv : variantOfByte v = some w) {f : List Byte} {s : State}
    (h : ¬ckHolds (ckStart s.cfg w) f) : exec (.ckVerify v f) s = .next (s.answered [0x00, 0x00]) := by
  rw [exec_ckVerify_of_variant hv, if_neg (mt (ckOk_eq_true_iff ..).1 h)]

end

/-- Settles O21: CK.VERIFY's verdict is R91's predicate from the start offset of the variant, and a reserved byte names none. -/
theorem ckVerifyRule : Obligations.CkVerifyRule := by
  unfold Obligations.CkVerifyRule
  have hInstr : variantOfByte 0x00 = some .instr := rfl
  have hPlate : variantOfByte 0x01 = some .plate := rfl
  refine ⟨portRule_byte .ckVerify, fun f s => ⟨?_, ?_, ?_, ?_⟩, fun v f s hv => ?_⟩
  · exact exec_ckVerify_of_holds hInstr
  · exact exec_ckVerify_of_fails hInstr
  · exact exec_ckVerify_of_holds hPlate
  · exact exec_ckVerify_of_fails hPlate
  · exact exec_ckVerify_reserved s f (variantOfByte_reserved hv)

end Sys2Proof.Machine
end

section
/-! PROOFS. The Instrument codec (42_codec_instrument.md): ENC.I (R99). -/

namespace Sys2Proof.Machine

open Sys2Proof

/-! ### A SEQ in a response (R51) -/

/-- The two bytes of a number as a `u16`, which is cut to 16 bits (R51). -/
theorem bytesOfU16_ofNat (n : Nat) : bytesOfU16 (.ofNat 16 n) = [.ofNat 8 (n / 256), .ofNat 8 n] := by
  have hhi : (BitVec.ofNat 16 n).extractLsb' 8 8 = .ofNat 8 (n / 256) := by
    apply BitVec.eq_of_toNat_eq
    simp only [BitVec.extractLsb'_toNat, BitVec.toNat_ofNat, Nat.shiftRight_eq_div_pow]
    omega
  have hlo : (BitVec.ofNat 16 n).extractLsb' 0 8 = .ofNat 8 n := by
    apply BitVec.eq_of_toNat_eq
    simp only [BitVec.extractLsb'_toNat, BitVec.toNat_ofNat, Nat.shiftRight_zero]
    omega
  rw [bytesOfU16, hhi, hlo]

/-- The model writes a SEQ of any length as R51's table does. -/
theorem bytesOfSeq_eq_seqBytes (b : List Byte) : bytesOfSeq b = seqBytes b := by
  rw [bytesOfSeq, bytesOfU16_ofNat]
  rfl

/-! ### The checksum of the assembled bytes (R61, R89) -/

/-- The generator sums every byte from its offset on (R89). -/
theorem ckGen_eq_ofNat_sum (b : List Byte) (start : Nat) :
    ckGen b start = .ofNat 8 ((b.drop start).map BitVec.toNat).sum := by
  rw [ckGen, sum8, List.take_of_length_le (List.length_drop ..).le]

/-- What ENC.I has assembled when it asks for the checksum: head, TOTAL_LENGTH, address, control code, payload (R99). -/
def instrBody (a c : Byte) (p : List Byte) : List Byte := [0x7B, .ofNat 8 (6 + p.length), a, c] ++ p

/-- A frame is those bytes, then checksum and tail (R60). -/
theorem instrFrame_eq (a c : Byte) (p : List Byte) (k t : Byte) :
    instrFrame a c p k t = instrBody a c p ++ [k, t] := rfl

/-- The generator run on the assembled bytes gives the checksum of R61: from offset 1 it sums the TOTAL_LENGTH byte too, which
is TOTAL_LENGTH mod 256. -/
theorem ckGen_instrBody (start : CkStart) (a c : Byte) (p : List Byte) :
    ckGen (instrBody a c p) start.offset = instrCk start a c p := by
  cases start with
  | one =>
    have hdrop : (instrBody a c p).drop CkStart.one.offset = .ofNat 8 (6 + p.length) :: a :: c :: p := rfl
    have hlen : (BitVec.ofNat 8 (6 + p.length)).toNat = (6 + p.length) % 256 := BitVec.toNat_ofNat ..
    apply BitVec.eq_of_toNat_eq
    simp only [ckGen_eq_ofNat_sum, instrCk, hdrop, hlen, List.map_cons, List.sum_cons, BitVec.toNat_ofNat]
    omega
  | two =>
    have hdrop : (instrBody a c p).drop CkStart.two.offset = a :: c :: p := rfl
    simp only [ckGen_eq_ofNat_sum, instrCk, hdrop, List.map_cons, List.sum_cons, Nat.zero_add, Nat.add_assoc]

/-! ### ENC.I (R99) -/

/-- A payload of up to 249 bytes is assembled into R60's frame with R61's checksum. -/
theorem encodeInstrFrame_of_le (cfg : Config) (a c : Byte) {p : List Byte} (h : p.length ≤ 249) :
    encodeInstrFrame cfg a c p = .ok (.frame (instrFrame a c p (instrCk cfg.instrCkStart a c p) 0x7D)) := by
  have hassembled : encodeInstrFrame cfg a c p =
      .ok (.frame (instrBody a c p ++ [ckGen (instrBody a c p) cfg.instrCkStart.offset] ++ [0x7D])) := by
    rw [encodeInstrFrame, require_of_holds (show p.length ≤ instrMaxPayload from h)]
    rfl
  rw [hassembled, ckGen_instrBody, List.append_assoc, instrFrame_eq]
  rfl

/-- A longer payload raises ENC_LENGTH before anything is assembled. -/
theorem encodeInstrFrame_of_lt (cfg : Config) (a c : Byte) {p : List Byte} (h : 249 < p.length) :
    encodeInstrFrame cfg a c p = .error (.status .encLength) := by
  rw [encodeInstrFrame, require_of_fails (show ¬p.length ≤ instrMaxPayload from h.not_ge)]
  rfl

/-- ENC.I of a payload that fits answers OK and the frame as a SEQ. -/
theorem exec_encI_of_le (a c : Byte) {p : List Byte} (h : p.length ≤ 249) (s : State) :
    exec (.encI a c p) s =
      .next (s.answered (0x00 :: seqBytes (instrFrame a c p (instrCk s.cfg.instrCkStart a c p) 0x7D))) := by
  rw [exec, execEncI, encodeInstrFrame_of_le s.cfg a c h, State.finish_ok, State.respond_eq_answered,
    ← bytesOfSeq_eq_seqBytes]
  rfl

/-- ENC.I of a payload that does not fit answers ENC_LENGTH alone. -/
theorem exec_encI_of_lt (a c : Byte) {p : List Byte} (h : 249 < p.length) (s : State) :
    exec (.encI a c p) s = .next (s.answered [0x06]) := by
  rw [exec, execEncI, encodeInstrFrame_of_lt s.cfg a c h]
  rfl

/-- Settles O25: the length requirement of ENC.I selects the clause, and the fields it assembles are R60's, with R61's checksum. -/
theorem encIRule : Obligations.EncIRule := by
  unfold Obligations.EncIRule
  exact ⟨portRule_byte .encI, fun a c p s => ⟨fun h => exec_encI_of_le a c h s, fun h => exec_encI_of_lt a c h s⟩⟩

end Sys2Proof.Machine
end

section
/-! PROOFS. The Plate codec (43_codec_plate.md): PADDR (R116), ENC.P (R119) and DEC.P (R124, R128). -/

namespace Sys2Proof.Machine

open Sys2Proof

/-! ### PADDR (R116) -/

/-- Settles O32: the requirement of PADDR selects the clause, and an index in its range does not wrap. -/
theorem pAddrRule : Obligations.PAddrRule := by
  unfold Obligations.PAddrRule
  refine ⟨portRule_byte .pAddr, fun i s => ⟨fun h => ?_, fun h => exec_pAddr_of_not_le (Nat.not_le.2 h) s⟩⟩
  have haddr : BitVec.ofNat 8 (i.toNat + 0x80) = i + 0x80 := by
    rw [BitVec.ofNat_add, BitVec.ofNat_toNat, BitVec.setWidth_eq]
    rfl
  rw [exec_pAddr_of_le h, haddr]

/-! ### The checksum of a Plate frame (R64) -/

/-- A Plate frame up to its parameters: head, address, control code, PARAM_LENGTH, parameters (R62, R63). -/
def plateBody (h a c : Byte) (p : List Byte) : List Byte := [h, a, c, .ofNat 8 p.length] ++ p

/-- A frame is those bytes, then checksum and tail (R62, R63). -/
theorem plateFrame_eq (h a c : Byte) (p : List Byte) (k t : Byte) :
    plateFrame h a c p k t = plateBody h a c p ++ [k, t] := rfl

theorem plateBody_length (h a c : Byte) (p : List Byte) : (plateBody h a c p).length = 4 + p.length := by
  rw [plateBody, List.length_append]
  rfl

theorem plateFrame_length (h a c : Byte) (p : List Byte) (k t : Byte) :
    (plateFrame h a c p k t).length = p.length + 6 := by
  rw [plateFrame_eq, List.length_append, plateBody_length, List.length_cons, List.length_singleton]
  omega

/-- The generator run over head to parameters gives the checksum of R64: the PARAM_LENGTH byte it sums is the length mod 256. -/
theorem ckGen_plateBody (h a c : Byte) (p : List Byte) : ckGen (plateBody h a c p) 0 = plateCk h a c p := by
  have hbody : (plateBody h a c p).drop 0 = h :: a :: c :: .ofNat 8 p.length :: p := rfl
  have hlen : (BitVec.ofNat 8 p.length).toNat = p.length % 256 := BitVec.toNat_ofNat ..
  apply BitVec.eq_of_toNat_eq
  simp only [ckGen_eq_ofNat_sum, plateCk, hbody, hlen, List.map_cons, List.sum_cons, BitVec.toNat_ofNat]
  omega

/-- The sum over the first part of a sequence is the generator's sum of that part (R85, R89). -/
theorem sum8_append (b rest : List Byte) : sum8 (b ++ rest) 0 b.length = ckGen b 0 := by
  rw [ckGen, sum8, sum8, List.drop_zero, List.drop_zero, List.take_left, Nat.sub_zero, List.take_length]

section
variable (h a c : Byte) (p : List Byte) (k t : Byte)

/-- The parameters stand behind the four header bytes. -/
theorem plateFrame_params : ((plateFrame h a c p k t).drop 4).take p.length = p := List.take_left

/-- The checksum byte stands behind the parameters. -/
theorem plateFrame_getElem?_ck : (plateFrame h a c p k t)[4 + p.length]? = some k := by
  rw [plateFrame_eq, ← plateBody_length h a c p, List.getElem?_append_right le_rfl, Nat.sub_self]
  rfl

/-- The tail byte stands last. -/
theorem plateFrame_getElem?_tail : (plateFrame h a c p k t)[4 + p.length + 1]? = some t := by
  rw [plateFrame_eq, ← plateBody_length h a c p, List.getElem?_append_right (Nat.le_add_right _ 1), Nat.add_sub_cancel_left]
  rfl

/-- The sum over head to parameters of a whole frame, as DEC.P takes it, is the checksum of R64. -/
theorem sum8_plateFrame : sum8 (plateFrame h a c p k t) 0 (4 + p.length) = plateCk h a c p := by
  rw [plateFrame_eq, ← plateBody_length h a c p, sum8_append, ckGen_plateBody]

end

/-! ### ENC.P (R119) -/

/-- Up to 255 parameter bytes are assembled into R62's frame with R64's checksum. -/
theorem encodePlateFrame_of_le (a c : Byte) {p : List Byte} (h : p.length ≤ 255) :
    encodePlateFrame a c p = .ok (.frame (plateFrame 0x4E a c p (plateCk 0x4E a c p) 0x45)) := by
  have hassembled : encodePlateFrame a c p =
      .ok (.frame (plateBody 0x4E a c p ++ [ckGen (plateBody 0x4E a c p) 0] ++ [0x45])) := by
    rw [encodePlateFrame, require_of_holds (show p.length ≤ plateMaxParam from h)]
    rfl
  rw [hassembled, ckGen_plateBody, List.append_assoc, plateFrame_eq]
  rfl

/-- More parameter bytes raise ENC_LENGTH before anything is assembled. -/
theorem encodePlateFrame_of_lt (a c : Byte) {p : List Byte} (h : 255 < p.length) :
    encodePlateFrame a c p = .error (.status .encLength) := by
  rw [encodePlateFrame, require_of_fails (show ¬p.length ≤ plateMaxParam from h.not_ge)]
  rfl

/-- ENC.P of parameters that fit answers OK and the frame as a SEQ. -/
theorem exec_encP_of_le (a c : Byte) {p : List Byte} (h : p.length ≤ 255) (s : State) :
    exec (.encP a c p) s =
      .next (s.answered (0x00 :: seqBytes (plateFrame 0x4E a c p (plateCk 0x4E a c p) 0x45))) := by
  rw [exec, execEncP, encodePlateFrame_of_le a c h, State.finish_ok, State.respond_eq_answered,
    ← bytesOfSeq_eq_seqBytes]
  rfl

/-- ENC.P of parameters that do not fit answers ENC_LENGTH alone. -/
theorem exec_encP_of_lt (a c : Byte) {p : List Byte} (h : 255 < p.length) (s : State) :
    exec (.encP a c p) s = .next (s.answered [0x06]) := by
  rw [exec, execEncP, encodePlateFrame_of_lt a c h]
  rfl

/-- Settles O33: the length requirement of ENC.P selects the clause, and the fields it assembles are R62's, with R64's checksum. -/
theorem encPRule : Obligations.EncPRule := by
  unfold Obligations.EncPRule
  exact ⟨portRule_byte .encP, fun a c p s => ⟨fun h => exec_encP_of_le a c h s, fun h => exec_encP_of_lt a c h s⟩⟩

/-! ### The checks of DEC.P, in their order (R124, R166) -/

variable {cfg : Config}

/-- A step that was passed hands its value on. -/
theorem ok_bind {ε α β : Type} (x : α) (f : α → Except ε β) : (Except.ok x >>= f) = f x := rfl

/-- A first byte that is not the inbound head, or none at all, is FRAME_ERROR. -/
theorem decodePlateFrame_of_head_ne {f : List Byte} (h : f.head? ≠ some 0x4F) :
    decodePlateFrame cfg f = .error (.status .frameError) := by
  have hhead : ¬f[0]? = some plateInHead := List.head?_eq_getElem? ▸ h
  rw [decodePlateFrame, require_of_fails hhead]
  rfl

/-- A head with no address byte behind it is FRAME_ERROR. -/
theorem decodePlateFrame_head : decodePlateFrame cfg [0x4F] = .error (.status .frameError) := rfl

/-- An address below the socket base is FRAME_ERROR, whatever follows it: the head and the address byte are there, so the address
is the next check. -/
theorem decodePlateFrame_of_address_lt {a : Byte} (h : a.toNat < 0x80) (tl : List Byte) :
    decodePlateFrame cfg (0x4F :: a :: tl) = .error (.status .frameError) := by
  change (require (socketBase.toNat ≤ a.toNat) .frameError >>= _) = _
  rw [require_of_fails (show ¬socketBase.toNat ≤ a.toNat from h.not_ge)]
  rfl

/-- Without both a control code and a PARAM_LENGTH byte, the read that fails is FRAME_ERROR (R82); so is an address that fails
before it. -/
theorem decodePlateFrame_of_short (a : Byte) {tl : List Byte} (h : tl.length < 2) :
    decodePlateFrame cfg (0x4F :: a :: tl) = .error (.status .frameError) := by
  by_cases haddr : socketBase.toNat ≤ a.toNat
  · change (require (socketBase.toNat ≤ a.toNat) .frameError >>= _) = _
    rw [require_of_holds haddr]
    match tl with
    | [] => rfl
    | [_] => rfl
  · exact decodePlateFrame_of_address_lt (Nat.lt_of_not_le haddr) tl

/-- A PARAM_LENGTH that is not the frame's is FRAME_ERROR; so is an address that fails before it. -/
theorem decodePlateFrame_of_length_ne (a c : Byte) {n : Byte} {tl : List Byte} (h : n.toNat + 6 ≠ tl.length + 4) :
    decodePlateFrame cfg (0x4F :: a :: c :: n :: tl) = .error (.status .frameError) := by
  by_cases haddr : socketBase.toNat ≤ a.toNat
  · have hlen : ¬n.toNat + fixedBytes = tl.length + 4 := h
    change (require (socketBase.toNat ≤ a.toNat) .frameError >>= _) = _
    rw [require_of_holds haddr]
    change (require (n.toNat + fixedBytes = tl.length + 4) .frameError >>= _) = _
    rw [require_of_fails hlen]
    rfl
  · exact decodePlateFrame_of_address_lt (Nat.lt_of_not_le haddr) _

section
variable {a c : Byte} {p : List Byte}

/-- A frame of R63's shape with a socket address passes every check before the checksum; the checksum, the tail and the
interpretation are what is left. -/
theorem decodePlateFrame_plateFrame (ha : 0x80 ≤ a.toNat) (hp : p.length ≤ 255) (k t : Byte) :
    decodePlateFrame cfg (plateFrame 0x4F a c p k t) = (do
      require (plateCk 0x4F a c p = k) .checksumError
      require (t = cfg.plateRxTail) .frameError
      interpP cfg a c p) := by
  have haddr : socketBase.toNat ≤ a.toNat := ha
  have hlen : p.length + fixedBytes = (plateFrame 0x4F a c p k t).length := (plateFrame_length ..).symm
  have hfits : 4 + p.length ≤ (plateFrame 0x4F a c p k t).length := by rw [plateFrame_length]; omega
  have hbyte : (BitVec.ofNat 8 p.length).toNat = p.length := by rw [BitVec.toNat_ofNat]; omega
  have hget0 : (plateFrame 0x4F a c p k t)[0]? = some plateInHead := rfl
  have hget1 : (plateFrame 0x4F a c p k t)[1]? = some a := rfl
  have hget2 : (plateFrame 0x4F a c p k t)[2]? = some c := rfl
  have hget3 : (plateFrame 0x4F a c p k t)[3]? = some (.ofNat 8 p.length) := rfl
  simp only [decodePlateFrame, Cursor.newParse, codec_ok, ok_bind,
    require_of_holds hget0, Cursor.get_of_getElem? hget0, Cursor.get_of_getElem? hget1, require_of_holds haddr,
    Cursor.get_of_getElem? hget2, Cursor.get_of_getElem? hget3, hbyte, require_of_holds hlen,
    Cursor.getN_of_le hfits, plateFrame_params, Cursor.get_of_getElem? (plateFrame_getElem?_ck ..), sum8_plateFrame,
    Cursor.get_of_getElem? (plateFrame_getElem?_tail ..)]

/-- A wrong checksum byte is CHECKSUM_ERROR, whatever the tail. -/
theorem decodePlateFrame_of_ck_ne (ha : 0x80 ≤ a.toNat) (hp : p.length ≤ 255) {k : Byte} (hk : k ≠ plateCk 0x4F a c p)
    (t : Byte) : decodePlateFrame cfg (plateFrame 0x4F a c p k t) = .error (.status .checksumError) := by
  rw [decodePlateFrame_plateFrame ha hp, require_of_fails hk.symm]
  rfl

/-- With the right checksum a wrong tail is FRAME_ERROR. -/
theorem decodePlateFrame_of_tail_ne (ha : 0x80 ≤ a.toNat) (hp : p.length ≤ 255) {t : Byte} (ht : t ≠ cfg.plateRxTail) :
    decodePlateFrame cfg (plateFrame 0x4F a c p (plateCk 0x4F a c p) t) = .error (.status .frameError) := by
  rw [decodePlateFrame_plateFrame ha hp, require_of_holds rfl, require_of_fails ht]
  rfl

/-- A frame with the right checksum and tail answers its interpretation (R128). -/
theorem decodePlateFrame_of_valid (ha : 0x80 ≤ a.toNat) (hp : p.length ≤ 255) :
    decodePlateFrame cfg (plateFrame 0x4F a c p (plateCk 0x4F a c p) cfg.plateRxTail) = interpP cfg a c p := by
  rw [decodePlateFrame_plateFrame ha hp, require_of_holds rfl, require_of_holds rfl]
  rfl

/-! ### The measurement interpretation (R128, R129) -/

/-- Two parameter bytes under a measurement code are one numeric field, divisor 100. -/
theorem interpP_of_measurement (hc : c ∈ cfg.plateMeasCodes) (hp : p.length = 2) :
    interpP cfg a c p = .ok (.decoded a c p (.numeric [⟨be16 p 0, 100⟩])) := by
  rw [interpP, if_pos hc, require_of_holds hp]
  rfl

/-- Another parameter length under a measurement code is UNKNOWN. -/
theorem interpP_of_length_ne (hc : c ∈ cfg.plateMeasCodes) (hp : p.length ≠ 2) :
    interpP cfg a c p = .error (.status .unknown) := by
  rw [interpP, if_pos hc, require_of_fails hp]
  rfl

/-- Under any other code the parameters are acknowledged only. -/
theorem interpP_of_not_measurement (hc : c ∉ cfg.plateMeasCodes) : interpP cfg a c p = .ok (.decoded a c p .none) :=
  if_neg hc

end

/-! ### DEC.P (R124) -/

section
variable {f : List Byte} {s : State}

theorem exec_decP_of_error {e : ErrorStatus} (h : decodePlateFrame s.cfg f = .error (.status e)) :
    exec (.decP f) s = .next (s.answered [e.code]) := by
  rw [exec, execDecP, h]
  rfl

theorem exec_decP_of_ok {r : Result} (h : decodePlateFrame s.cfg f = .ok r) :
    exec (.decP f) s = .next (s.answered (0x00 :: encodeResult r)) := by
  rw [exec, execDecP, h]
  rfl

end

/-- The result bytes of a measurement: the fields, then one numeric field whose raw value is the two parameter bytes (R57). -/
theorem encodeResult_measurement (a c hi lo : Byte) :
    encodeResult (.decoded a c [hi, lo] (.numeric [⟨be16 [hi, lo] 0, 100⟩])) =
      [a, c, 0x00, 0x02, hi, lo, 0x01, 0x01, hi, lo, 0x00, 0x64] := by
  have hraw : bytesOfU16 (be16 [hi, lo] 0) = [hi, lo] := bytesOfU16_u16OfBytes hi lo
  have hdiv : bytesOfU16 100 = [0x00, 0x64] := by decide
  have hseq : bytesOfSeq [hi, lo] = [0x00, 0x02, hi, lo] := congrArg (· ++ [hi, lo]) (by decide : bytesOfU16 2 = [0x00, 0x02])
  simp only [encodeResult, encodeValue, encodeNumericField, List.flatMap_singleton, hraw, hdiv, hseq]
  rfl

/-- The result bytes of an acknowledged frame: the fields, then the value NONE (R57). -/
theorem encodeResult_acknowledged (a c : Byte) (p : List Byte) :
    encodeResult (.decoded a c p .none) = [a, c] ++ seqBytes p ++ [0x00] := by
  rw [← bytesOfSeq_eq_seqBytes]
  rfl

/-- Settles O34: each clause is the first check that fails, in the order of R166, or the interpretation when none does. -/
theorem decPRule : Obligations.DecPRule := by
  unfold Obligations.DecPRule
  refine ⟨portRule_byte .decP, fun s => ⟨?head, ?noAddress, ?address, ?short, ?length, ?checksum, ?tail, ?measurement,
    ?unknown, ?acknowledged⟩⟩
  case head => exact fun f h => exec_decP_of_error (decodePlateFrame_of_head_ne h)
  case noAddress => exact exec_decP_of_error decodePlateFrame_head
  case address => exact fun a tl h => exec_decP_of_error (decodePlateFrame_of_address_lt h tl)
  case short => exact fun a tl h => exec_decP_of_error (decodePlateFrame_of_short a h)
  case length => exact fun a c n tl h => exec_decP_of_error (decodePlateFrame_of_length_ne a c h)
  case checksum => exact fun a c p k t ha hp hk => exec_decP_of_error (decodePlateFrame_of_ck_ne ha hp hk t)
  case tail => exact fun a c p t ha hp ht => exec_decP_of_error (decodePlateFrame_of_tail_ne ha hp ht)
  case measurement =>
    intro a c hi lo ha hc
    have hp : [hi, lo].length ≤ 255 := Nat.le_of_ble_eq_true rfl
    rw [exec_decP_of_ok ((decodePlateFrame_of_valid ha hp).trans (interpP_of_measurement hc rfl)), encodeResult_measurement]
  case unknown =>
    intro a c p ha hp hc hne
    exact exec_decP_of_error ((decodePlateFrame_of_valid ha hp).trans (interpP_of_length_ne hc hne))
  case acknowledged =>
    intro a c p ha hp hc
    rw [exec_decP_of_ok ((decodePlateFrame_of_valid ha hp).trans (interpP_of_not_measurement hc)), encodeResult_acknowledged]
    rfl

end Sys2Proof.Machine
end

section
/-! PROOFS. The framer (44_framer.md): FRM.RESET (R135), FRM.CFG (R137) and FRM.FEED's drain loop (R139, R141). -/

namespace Sys2Proof.Machine

open Sys2Proof

/-! ### FRM.RESET (R135) -/

theorem exec_frmReset (s : State) :
    exec .frmReset s = .next { s with frmBuf := [], responses := s.responses ++ [[0x00]] } := rfl

/-- Settles O38: emptying FRM_BUF and answering OK are the only writes of FRM.RESET, and its packet is the opcode alone. -/
theorem frmResetRule : Obligations.FrmResetRule := by
  unfold Obligations.FrmResetRule
  exact ⟨portRule_byte .frmReset, exec_frmReset⟩

/-! ### FRM.CFG (R137) -/

/-- FRM.CFG of a variant that is not reserved writes it and empties FRM_BUF, whatever the variant was. -/
theorem exec_frmCfg_of_variant {v : Byte} {w : Variant} (hv : variantOfByte v = some w) (s : State) :
    exec (.frmCfg v) s = .next { s with frmVariant := w, frmBuf := [], responses := s.responses ++ [[0x00]] } := by
  rw [exec, execFrmCfg, hv]
  rfl

/-- Settles O39: the byte of FRM.CFG names INSTR, PLATE or, when it is reserved, no variant. -/
theorem frmCfgRule : Obligations.FrmCfgRule := by
  unfold Obligations.FrmCfgRule
  have hInstr : variantOfByte 0x00 = some .instr := rfl
  have hPlate : variantOfByte 0x01 = some .plate := rfl
  refine ⟨portRule_byte .frmCfg, ?_, ?_, fun v s hv => ?_⟩
  · exact exec_frmCfg_of_variant hInstr
  · exact exec_frmCfg_of_variant hPlate
  · exact exec_frmCfg_reserved s (variantOfByte_reserved hv)

/-! ### The response of FRM.FEED (R58) -/

/-- A byte cut out of a number's word is that byte of the number. -/
theorem extractLsb'_ofNat_byte {w k : Nat} (h : k + 8 ≤ w) (n : Nat) :
    (BitVec.ofNat w n).extractLsb' k 8 = .ofNat 8 (n / 2 ^ k) := by
  apply BitVec.eq_of_getLsbD_eq
  intro i hi
  have hin : k + i < w := by omega
  rw [BitVec.getLsbD_extractLsb', BitVec.getLsbD_ofNat, BitVec.getLsbD_ofNat, Nat.testBit_div_two_pow, Nat.add_comm i k]
  simp [hin]

/-- The four bytes of a number as a `u32`, which is cut to 32 bits (R51). -/
theorem bytesOfU32_ofNat (n : Nat) :
    bytesOfU32 (.ofNat 32 n) = [.ofNat 8 (n / 2 ^ 24), .ofNat 8 (n / 2 ^ 16), .ofNat 8 (n / 2 ^ 8), .ofNat 8 n] := by
  have hlow : (BitVec.ofNat 32 n).extractLsb' 0 8 = .ofNat 8 n := by
    rw [extractLsb'_ofNat_byte (by decide), Nat.pow_zero, Nat.div_one]
  rw [bytesOfU32, hlow, extractLsb'_ofNat_byte (by decide), extractLsb'_ofNat_byte (by decide),
    extractLsb'_ofNat_byte (by decide)]

/-- The model writes each event as R58's table does. -/
theorem encodeEvent_eq_eventBytes (e : Event) : encodeEvent e = eventBytes e := by
  match e with
  | .frame f => rw [encodeEvent, bytesOfSeq_eq_seqBytes, eventBytes]
  | .frameErr .badLength => rfl
  | .frameErr .badTail => rfl
  | .frameErr .oversize => rfl
  | .ckErr f => rw [encodeEvent, bytesOfSeq_eq_seqBytes, eventBytes]

theorem encodeResponse_events (ev : List Event) : encodeResponse (.ok (.events ev)) = feedResponse ev := by
  rw [encodeResponse, encodeResult, encodeEvents, bytesOfU32_ofNat, funext encodeEvent_eq_eventBytes]
  rfl

/-- FRM.FEED answers the events its bytes find, and writes only FRM_BUF. -/
theorem exec_frmFeed (chunk : List Byte) (s : State) :
    exec (.frmFeed chunk) s =
      .next { s with
        frmBuf := (feedBytes s.cfg s.frmVariant chunk s.frmBuf).2
        responses := s.responses ++ [feedResponse (feedBytes s.cfg s.frmVariant chunk s.frmBuf).1] } := by
  rw [exec, execFrmFeed, State.respond, encodeResponse_events]
  rfl

/-! ### One pass on a hunted buffer (R141 to R146)

Each rule of `DrainRun` fixes what a pass of the model decides, and the decision picks the rule. -/

theorem headOf_eq_rxHead (v : Variant) : headOf v = rxHead v := by
  cases v <;> rfl

theorem tailOf_eq_rxTail (cfg : Config) (v : Variant) : tailOf cfg v = rxTail cfg v := by
  cases v <;> rfl

section
variable {cfg : Config} {v : Variant} {buf out : List Byte} {ev : List Event}

/-- What a hunt leaves is at a head. -/
theorem atHead_hunt (v : Variant) (buf : List Byte) : AtHead v (hunt v buf) := by
  rw [AtHead, headOf_eq_rxHead]
  exact hunt_atHead v buf

/-- A buffer at a head has nothing to hunt away. -/
theorem AtHead.hunt_eq (h : AtHead v buf) : hunt v buf = buf := by
  rw [AtHead, headOf_eq_rxHead] at h
  obtain rfl | hhead := h
  · rfl
  · exact hunt_of_head? hhead

theorem completeCandidate_iff : CompleteCandidate cfg v buf ↔
    fixedBytes ≤ declLen v buf ∧ declLen v buf ≤ cfg.maxFrame ∧ declLen v buf ≤ buf.length ∧
      buf[declLen v buf - 1]? = some (rxTail cfg v) := by
  rw [CompleteCandidate, tailOf_eq_rxTail]
  rfl

/-! The verdict of a pass, from the conditions of each rule. -/

theorem judge_of_short (h : buf.length < hdrLen v) : judge cfg v buf = .wait := if_pos h

section
variable (hh : hdrLen v ≤ buf.length) (he : cfg.earlyReject = true)
include hh he

theorem judge_of_early : judge cfg v buf = judgeEarly cfg v buf (declLen v buf) := by
  rw [judge, if_neg hh.not_gt, if_pos he]

theorem judge_of_badLength (h6 : declLen v buf < 6) : judge cfg v buf = .reject .badLength := by
  rw [judge_of_early hh he, judgeEarly, if_pos (show declLen v buf < fixedBytes from h6)]

variable (h6 : 6 ≤ declLen v buf)
include h6

/-- A declared length of at least 6 passes the first check. -/
theorem judge_of_six_le : judge cfg v buf =
    if cfg.maxFrame < declLen v buf then .reject .oversize
    else if buf.length < declLen v buf then .wait
    else if buf[declLen v buf - 1]? ≠ some (rxTail cfg v) then .reject .badTail
    else .complete (declLen v buf) := by
  rw [judge_of_early hh he, judgeEarly, if_neg (show ¬declLen v buf < fixedBytes from h6.not_gt)]

theorem judge_of_oversize (hm : cfg.maxFrame < declLen v buf) : judge cfg v buf = .reject .oversize := by
  rw [judge_of_six_le hh he h6, if_pos hm]

variable (hm : declLen v buf ≤ cfg.maxFrame)
include hm

theorem judge_of_body (hl : buf.length < declLen v buf) : judge cfg v buf = .wait := by
  rw [judge_of_six_le hh he h6, if_neg hm.not_gt, if_pos hl]

theorem judge_of_badTail (hl : declLen v buf ≤ buf.length) (ht : buf[declLen v buf - 1]? ≠ some (tailOf cfg v)) :
    judge cfg v buf = .reject .badTail := by
  rw [tailOf_eq_rxTail] at ht
  rw [judge_of_six_le hh he h6, if_neg hm.not_gt, if_neg hl.not_gt, if_pos ht]

end

section
variable (hh : hdrLen v ≤ buf.length) (he : cfg.earlyReject = false)
include hh he

theorem judge_of_literal : judge cfg v buf = judgeLiteral cfg v buf (declLen v buf) := by
  rw [judge, if_neg hh.not_gt, if_neg (Bool.eq_false_iff.1 he)]

variable (hc : ¬CompleteCandidate cfg v buf)
include hc

theorem judge_of_literalOversize (hm : cfg.maxFrame < buf.length) : judge cfg v buf = .reject .oversize := by
  rw [judge_of_literal hh he, judgeLiteral, if_neg (mt completeCandidate_iff.2 hc), if_pos hm]

theorem judge_of_literalWait (hm : buf.length ≤ cfg.maxFrame) : judge cfg v buf = .wait := by
  rw [judge_of_literal hh he, judgeLiteral, if_neg (mt completeCandidate_iff.2 hc), if_neg hm.not_gt]

end

/-- A complete candidate is one in either mode. -/
theorem judge_of_completeCandidate (hh : hdrLen v ≤ buf.length) (hc : CompleteCandidate cfg v buf) :
    judge cfg v buf = .complete (declLen v buf) := by
  rw [completeCandidate_iff] at hc
  cases he : cfg.earlyReject with
  | false => rw [judge_of_literal hh he, judgeLiteral, if_pos hc]
  | true =>
    obtain ⟨h6, hm, hl, ht⟩ := hc
    rw [judge_of_six_le hh he h6, if_neg hm.not_gt, if_neg hl.not_gt, if_neg (not_not.2 ht)]

/-! What `Drain()` does from each verdict, and the event of a complete candidate. -/

theorem AtHead.drain_of_wait (ha : AtHead v buf) (hj : judge cfg v buf = .wait) : drain cfg v buf = ([], buf) := by
  rw [drain_eq, ha.hunt_eq, hj]

theorem AtHead.drain_of_reject {r : FrameErrReason} (ha : AtHead v buf) (hj : judge cfg v buf = .reject r)
    (hd : drain cfg v (buf.drop 1) = (ev, out)) : drain cfg v buf = (.frameErr r :: ev, out) := by
  rw [drain_eq, ha.hunt_eq, hj, hd]

theorem AtHead.drain_of_complete {len : Nat} (ha : AtHead v buf) (hj : judge cfg v buf = .complete len)
    (hd : drain cfg v (buf.drop len) = (ev, out)) :
    drain cfg v buf = (classify cfg v (buf.take len) :: ev, out) := by
  rw [drain_eq, ha.hunt_eq, hj]
  dsimp only
  rw [hd]

theorem classify_of_holds {f : List Byte} (h : ckHolds (ckStart cfg v) f) : classify cfg v f = .frame f :=
  if_pos ((ckOk_eq_true_iff ..).2 h)

theorem classify_of_fails {f : List Byte} (h : ¬ckHolds (ckStart cfg v) f) : classify cfg v f = .ckErr f :=
  if_neg (mt (ckOk_eq_true_iff ..).1 h)

/-! ### The drain loop has exactly the model's outcome (R141) -/

/-- Every run of the spec's loop ends as `Drain()` of the model does. -/
theorem drain_of_drainRun (h : DrainRun cfg v buf ev out) : drain cfg v buf = (ev, out) := by
  induction h with
  | hunt hb _ ih =>
    rw [headOf_eq_rxHead] at hb
    rw [drain_eq, hunt_cons_noise hb, ← drain_eq, ih]
  | header ha hs => exact ha.drain_of_wait (judge_of_short hs)
  | badLength ha hh he h6 _ ih => exact ha.drain_of_reject (judge_of_badLength hh he h6) ih
  | oversize ha hh he h6 hm _ ih => exact ha.drain_of_reject (judge_of_oversize hh he h6 hm) ih
  | body ha hh he h6 hm hl => exact ha.drain_of_wait (judge_of_body hh he h6 hm hl)
  | badTail ha hh he h6 hm hl ht _ ih => exact ha.drain_of_reject (judge_of_badTail hh he h6 hm hl ht) ih
  | literalOversize ha hh he hc hm _ ih => exact ha.drain_of_reject (judge_of_literalOversize hh he hc hm) ih
  | literalWait ha hh he hc hm => exact ha.drain_of_wait (judge_of_literalWait hh he hc hm)
  | frame ha hh hc hck _ ih =>
    rw [ha.drain_of_complete (judge_of_completeCandidate hh hc) ih, classify_of_holds hck]
  | ckErr ha hh hc hck _ ih =>
    rw [ha.drain_of_complete (judge_of_completeCandidate hh hc) ih, classify_of_fails hck]

/-- A run on what a hunt leaves is a run on the buffer: `Hunt()` discards the bytes before the head one by one. -/
theorem drainRun_of_hunt (h : DrainRun cfg v (hunt v buf) ev out) : DrainRun cfg v buf ev out := by
  induction buf with
  | nil => exact h
  | cons b buf ih =>
    by_cases hb : b = rxHead v
    · subst hb
      rwa [hunt_cons_head] at h
    · rw [hunt_cons_noise hb] at h
      exact .hunt (headOf_eq_rxHead v ▸ hb) (ih h)

/-- Where the model waits, a rule of the loop stops. -/
theorem drainRun_of_wait (ha : AtHead v buf) (hj : judge cfg v buf = .wait) : DrainRun cfg v buf [] buf := by
  rcases judge_cases cfg v buf with
    ⟨hj', hwait⟩ | ⟨hj', _⟩ | ⟨hj', _⟩ | ⟨hj', _⟩ | ⟨hj', _⟩ | ⟨hj', _⟩
  all_goals cases hj.symm.trans hj'
  obtain hs | ⟨hh, he, h6, hm, hl⟩ | ⟨hh, he, hm, hc⟩ := hwait
  · exact .header ha hs
  · exact .body ha hh he h6 hm hl
  · exact .literalWait ha hh he (mt completeCandidate_iff.1 hc) hm

/-- Where the model rejects a candidate, a rule of the loop rejects it for the same reason. -/
theorem drainRun_of_reject {r : FrameErrReason} (ha : AtHead v buf) (hj : judge cfg v buf = .reject r)
    (h : DrainRun cfg v (buf.drop 1) ev out) : DrainRun cfg v buf (.frameErr r :: ev) out := by
  rcases judge_cases cfg v buf with
    ⟨hj', _⟩ | ⟨hj', hh, he, h6⟩ | ⟨hj', hh, he, h6, hm⟩ | ⟨hj', hh, he, h6, hm, hl, ht⟩ | ⟨hj', hh, he, hm, hc⟩ | ⟨hj', _⟩
  all_goals cases hj.symm.trans hj'
  · exact .badLength ha hh he h6 h
  · exact .oversize ha hh he h6 hm h
  · exact .badTail ha hh he h6 hm hl (tailOf_eq_rxTail cfg v ▸ ht) h
  · exact .literalOversize ha hh he (mt completeCandidate_iff.1 hc) hm h

/-- Where the model completes a candidate, the rule for its checksum consumes it. -/
theorem drainRun_of_complete {len : Nat} (ha : AtHead v buf) (hj : judge cfg v buf = .complete len)
    (h : DrainRun cfg v (buf.drop len) ev out) :
    DrainRun cfg v buf (classify cfg v (buf.take len) :: ev) out := by
  obtain ⟨rfl, hh, hcandidate⟩ := judge_complete hj
  have hc : CompleteCandidate cfg v buf := completeCandidate_iff.2 hcandidate
  by_cases hck : ckHolds (ckStart cfg v) (buf.take (declLen v buf))
  · exact classify_of_holds hck ▸ .frame ha hh hc hck h
  · exact classify_of_fails hck ▸ .ckErr ha hh hc hck h

end

/-- What `Drain()` of the model does is a run of the spec's loop, pass by pass. -/
theorem drainRun_drain (cfg : Config) (v : Variant) (buf : List Byte) :
    DrainRun cfg v buf (drain cfg v buf).1 (drain cfg v buf).2 := by
  induction buf using drain_induct cfg v with
  | wait buf hj =>
    rw [drain_eq, hj]
    exact drainRun_of_hunt (drainRun_of_wait (atHead_hunt v buf) hj)
  | reject buf r hj ih =>
    rw [drain_eq, hj]
    exact drainRun_of_hunt (drainRun_of_reject (atHead_hunt v buf) hj ih)
  | complete buf len hj ih =>
    rw [drain_eq, hj]
    exact drainRun_of_hunt (drainRun_of_complete (atHead_hunt v buf) hj ih)

/-! ### FRM.FEED (R139) -/

/-- What the model does with a chunk is a run of the spec's per-byte loop. -/
theorem feedRun_feedBytes (cfg : Config) (v : Variant) (chunk buf : List Byte) :
    FeedRun cfg v chunk buf (feedBytes cfg v chunk buf).1 (feedBytes cfg v chunk buf).2 := by
  induction chunk generalizing buf with
  | nil => exact .nil
  | cons b chunk ih => exact .cons (drainRun_drain cfg v (buf ++ [b])) (ih _)

/-- Every run of the spec's per-byte loop ends as the model does. -/
theorem feedBytes_of_feedRun {cfg : Config} {v : Variant} {chunk buf out : List Byte} {ev : List Event}
    (h : FeedRun cfg v chunk buf ev out) : feedBytes cfg v chunk buf = (ev, out) := by
  induction h with
  | nil => exact feedBytes_nil ..
  | cons hdrain _ ih => rw [feedBytes_cons, drain_of_drainRun hdrain, ih]

/-- Settles O40: the model's loop, whose bound on its passes is never used up, is a run of the spec's, and every run of the spec's
loop ends as the model's does. -/
theorem frmFeedRunsTheDrainLoop : Obligations.FrmFeedRunsTheDrainLoop := by
  unfold Obligations.FrmFeedRunsTheDrainLoop
  refine ⟨portRule_byte .frmFeed, fun chunk s => ⟨_, _, feedRun_feedBytes .., exec_frmFeed chunk s, fun ev' out' hrun => ?_⟩⟩
  rw [feedBytes_of_feedRun hrun]
  exact ⟨rfl, rfl⟩

end Sys2Proof.Machine
end

section
/-! PROOFS. Exceptions (60_exceptions.md): one response to every packet (R163), and nothing written when a status is raised (R155). -/

namespace Sys2Proof.Machine

open Sys2Proof

/-! ### The statuses a meaning can raise (R13, R82) -/

/-- `o` ends early only by raising a status whose code is in `allowed`; it never reaches what the model refuses. -/
def RaisesOnly {α : Type} (allowed : List Byte) (o : Except Raise α) : Prop :=
  ∀ x, o = .error x → ∃ e : ErrorStatus, x = .status e ∧ e.code ∈ allowed

section
variable {α β : Type} {allowed : List Byte}

theorem RaisesOnly.ok (a : α) : RaisesOnly allowed (.ok a) := fun _ h => nomatch h

theorem RaisesOnly.status {e : ErrorStatus} (he : e.code ∈ allowed) :
    RaisesOnly allowed (.error (.status e) : Except Raise α) := by
  rintro _ ⟨⟩
  exact ⟨e, rfl, he⟩

/-- A requirement raises its own status, and what follows it counts only where it holds. -/
theorem RaisesOnly.require {p : Prop} [Decidable p] {e : ErrorStatus} {f : Unit → Except Raise β} (he : e.code ∈ allowed)
    (hf : p → RaisesOnly allowed (f ())) : RaisesOnly allowed (require p e >>= f) := by
  by_cases hp : p
  · rw [require_of_holds hp]
    exact hf hp
  · rw [require_of_fails hp]
    exact .status he

/-- Reading past the end of a parse cursor raises FRAME_ERROR (R82); what follows reads on from the next byte. -/
theorem RaisesOnly.get {buf : List Byte} {rd : Nat} {f : Byte × Cursor → Except Raise β}
    (he : ErrorStatus.frameError.code ∈ allowed) (hf : ∀ b, RaisesOnly allowed (f (b, ⟨buf, rd + 1, .parse⟩))) :
    RaisesOnly allowed (codec (Cursor.mk buf rd .parse).get >>= f) := by
  obtain ⟨b, -, hget⟩ | ⟨-, hget⟩ := Cursor.get_cases buf rd
  · rw [hget]
    exact hf b
  · rw [hget]
    exact .status he

theorem RaisesOnly.getN {buf : List Byte} {rd n : Nat} {f : List Byte × Cursor → Except Raise β}
    (he : ErrorStatus.frameError.code ∈ allowed) (hf : ∀ p, RaisesOnly allowed (f (p, ⟨buf, rd + n, .parse⟩))) :
    RaisesOnly allowed (codec ((Cursor.mk buf rd .parse).getN n) >>= f) := by
  obtain ⟨-, hget⟩ | ⟨-, hget⟩ := Cursor.getN_cases buf rd n
  · rw [hget]
    exact hf _
  · rw [hget]
    exact .status he

end

theorem encodeInstrFrame_raisesOnly (cfg : Config) (a c : Byte) (p : List Byte) :
    RaisesOnly [0x00, 0x06] (encodeInstrFrame cfg a c p) := by
  obtain h | h := le_or_gt p.length 249
  · rw [encodeInstrFrame_of_le cfg a c h]
    exact .ok _
  · rw [encodeInstrFrame_of_lt cfg a c h]
    exact .status (by decide)

theorem encodePlateFrame_raisesOnly (a c : Byte) (p : List Byte) :
    RaisesOnly [0x00, 0x06] (encodePlateFrame a c p) := by
  obtain h | h := le_or_gt p.length 255
  · rw [encodePlateFrame_of_le a c h]
    exact .ok _
  · rw [encodePlateFrame_of_lt a c h]
    exact .status (by decide)

/-- The checks and reads of DEC.I, in their order (R104, R165): each raises FRAME_ERROR but the checksum. -/
theorem decodeInstrFrame_raisesOnly (cfg : Config) (pcc : Byte) (f : List Byte) :
    RaisesOnly [0x00, 0x01, 0x02] (decodeInstrFrame cfg pcc f) := by
  have hframe : ErrorStatus.frameError.code ∈ ([0x00, 0x01, 0x02] : List Byte) := by decide
  have hck : ErrorStatus.checksumError.code ∈ ([0x00, 0x01, 0x02] : List Byte) := by decide
  exact .require hframe fun _head => .get hframe fun _ => .get hframe fun _len =>
    .require hframe fun _total => .require hframe fun _min => .get hframe fun _a => .get hframe fun _c =>
    .getN hframe fun _p => .require hframe fun _layout => .get hframe fun _k => .require hck fun _sum =>
    .get hframe fun _t => .require hframe fun _tail => .ok _

/-- The interpretation of a Plate frame raises UNKNOWN only (R128). -/
theorem interpP_raisesOnly {allowed : List Byte} (h : ErrorStatus.unknown.code ∈ allowed) (cfg : Config) (a c : Byte)
    (p : List Byte) : RaisesOnly allowed (interpP cfg a c p) := by
  unfold interpP
  split
  · exact .require h fun _ => .ok _
  · exact .ok _

/-- The checks and reads of DEC.P, in their order (R124, R166): each raises FRAME_ERROR but the checksum and the
interpretation. -/
theorem decodePlateFrame_raisesOnly (cfg : Config) (f : List Byte) :
    RaisesOnly [0x00, 0x01, 0x02, 0x03] (decodePlateFrame cfg f) := by
  have hframe : ErrorStatus.frameError.code ∈ ([0x00, 0x01, 0x02, 0x03] : List Byte) := by decide
  have hck : ErrorStatus.checksumError.code ∈ ([0x00, 0x01, 0x02, 0x03] : List Byte) := by decide
  have hunknown : ErrorStatus.unknown.code ∈ ([0x00, 0x01, 0x02, 0x03] : List Byte) := by decide
  exact .require hframe fun _head => .get hframe fun _ => .get hframe fun a => .require hframe fun _addr =>
    .get hframe fun c => .get hframe fun _len => .require hframe fun _total => .getN hframe fun p =>
    .get hframe fun _k => .require hck fun _sum => .get hframe fun _t => .require hframe fun _tail =>
    interpP_raisesOnly hunknown cfg a c p

/-! ### How an operation ends (R55, R155) -/

/-- The two ways an operation ends from state `s`: with status OK, its results sent and nothing but the framer's state written; or
with a raised status of `allowed`, which is sent alone and is all that is written. -/
inductive Answers (allowed : List Byte) (s : State) : Host.Outcome State Fault Refusal → Prop where
  | ok (v : Variant) (buf results : List Byte) :
      Answers allowed s (.next (State.answered { s with frmVariant := v, frmBuf := buf } (0x00 :: results)))
  | raised (e : ErrorStatus) (he : e.code ∈ allowed) : Answers allowed s (.next (s.answered [e.code]))

section
variable {allowed : List Byte} {s : State}

theorem Answers.mono {more : List Byte} {o : Host.Outcome State Fault Refusal} (h : Answers allowed s o)
    (hsub : allowed ⊆ more) : Answers more s o := by
  cases h with
  | ok v buf results => exact .ok v buf results
  | raised e he => exact .raised e (hsub he)

/-- An operation that writes no block state ends as its meaning does. -/
theorem Answers.finish {o : Except Raise Result} (h : RaisesOnly allowed o) : Answers allowed s (s.finish o) := by
  match o with
  | .ok r => exact .ok s.frmVariant s.frmBuf (encodeResult r)
  | .error x =>
    obtain ⟨e, rfl, he⟩ := h x rfl
    exact .raised e he

/-- A response that is read back is OK's, or is the raised status alone in a state otherwise unchanged. -/
theorem Answers.ok_or_raised {t : State} {st : Byte} {body : List Byte} (h : Answers allowed s (.next t))
    (hr : t.responses = s.responses ++ [st :: body]) : st = 0x00 ∨ st ∈ allowed ∧ t = s.answered [st] := by
  cases h with
  | ok v buf results =>
    obtain ⟨rfl, -⟩ : 0x00 = st ∧ results = body := by simpa [State.answered] using hr
    exact .inl rfl
  | raised e he =>
    obtain ⟨rfl, -⟩ : e.code = st ∧ [] = body := by simpa [State.answered] using hr
    exact .inr ⟨he, rfl⟩

/-- Ending either way sends one response and leaves the port as it was. -/
theorem Answers.exists_response {o : Host.Outcome State Fault Refusal} (h : Answers allowed s o) :
    ∃ (t : State) (st : Byte) (body : List Byte), o = .next t ∧ t.pending = s.pending ∧ t.inReset = s.inReset ∧
      t.responses = s.responses ++ [st :: body] ∧ (st = 0x00 ∨ st ∈ allowed) ∧ (st ≠ 0x00 → body = []) := by
  cases h with
  | ok v buf results => exact ⟨_, 0x00, results, rfl, rfl, rfl, rfl, .inl rfl, fun h => absurd rfl h⟩
  | raised e he => exact ⟨_, e.code, [], rfl, rfl, rfl, rfl, .inr he, fun _ => rfl⟩

end

/-- Every operation ends one of the two ways, and raises only the statuses of its row in R56's table. -/
theorem exec_answers (i : Instr) (s : State) : Answers (statusesOf i) s (exec i s) := by
  have hrange : ErrorStatus.outOfRange.code ∈ ([0x00, 0x05] : List Byte) := by decide
  have hillegal : ErrorStatus.illegalOp.code ∈ ([0x00, 0x07] : List Byte) := by decide
  cases i with
  | ckSum b start n => exact .finish (.require hrange fun _ => .ok _)
  | ckSumEnd b start => exact .finish (.require hrange fun _ => .ok _)
  | ckSumRng b start stop => exact .finish (.require hrange fun _ => .ok _)
  | ckVerify v f =>
    cases hv : variantOfByte v with
    | none => exact exec_ckVerify_reserved s f hv ▸ .raised .illegalOp hillegal
    | some w => exact exec_ckVerify_of_variant hv f s ▸ .ok s.frmVariant s.frmBuf _
  | encI a c p => exact .finish (encodeInstrFrame_raisesOnly s.cfg a c p)
  | decI pcc f => exact .finish (decodeInstrFrame_raisesOnly s.cfg pcc f)
  | pAddr n => exact .finish (.require hrange fun _ => .ok _)
  | encP a c p => exact .finish (encodePlateFrame_raisesOnly a c p)
  | decP f => exact .finish (decodePlateFrame_raisesOnly s.cfg f)
  | frmReset => exact .ok s.frmVariant [] []
  | frmCfg v =>
    cases hv : variantOfByte v with
    | none => exact exec_frmCfg_reserved s hv ▸ .raised .illegalOp hillegal
    | some w => exact exec_frmCfg_of_variant hv s ▸ .ok w [] []
  | frmFeed chunk =>
    exact .ok s.frmVariant (feedBytes s.cfg s.frmVariant chunk s.frmBuf).2
      (encodeResult (.events (feedBytes s.cfg s.frmVariant chunk s.frmBuf).1))

/-! ### How a step on a packet ends -/

/-- The statuses of R56 that the block answers: all but TIMEOUT (R163). -/
def answeredStatuses : List Byte := [0x00, 0x01, 0x02, 0x03, 0x05, 0x06, 0x07, 0x08]

theorem statusesOf_subset (i : Instr) : statusesOf i ⊆ answeredStatuses := by
  cases i <;> simp [statusesOf, answeredStatuses]

/-- The operations that write the framer's state have no status but OK and ILLEGAL_OP in R56's table. -/
theorem statusesOf_subset_of_not_pure {i : Instr} (h : isPure i = false) : statusesOf i ⊆ [0x00, 0x07] := by
  cases i with
  | frmReset => simp [statusesOf]
  | frmCfg v => simp [statusesOf]
  | frmFeed chunk => simp [statusesOf]
  | _ => nomatch h

/-- Only the packet of no byte has no opcode. -/
theorem decode_cons_ne_noOpcode (opc : Byte) (bs : List Byte) : decode (opc :: bs) ≠ .error .noOpcode := by
  cases ho : Opcode.ofByte opc with
  | none =>
    rw [decode_of_ofByte_none ho]
    nofun
  | some o =>
    rw [← Opcode.byte_of_ofByte ho]
    cases hd : decodeOperands o bs with
    | none =>
      rw [decode_byte_of_none hd]
      nofun
    | some i =>
      rw [decode_byte_of_some hd]
      nofun

/-- A packet with an opcode that carries no operation has a status at the port. -/
theorem exists_portStatus {p : List Byte} {e : DecodeError} (hne : p ≠ []) (hd : decode p = .error e) :
    ∃ st, portStatus e = some st ∧ st.code ∈ answeredStatuses := by
  cases e with
  | noOpcode =>
    obtain ⟨opc, bs, rfl⟩ := List.exists_cons_of_ne_nil hne
    exact absurd hd (decode_cons_ne_noOpcode opc bs)
  | undefinedOpcode opc => exact ⟨.illegalOp, rfl, by decide⟩
  | malformed o => exact ⟨.badPacket, rfl, by decide⟩

section
variable {s : State} {p : List Byte} {rest : List PortInput}

theorem step_of_decode_ok {i : Instr} (hr : s.inReset = false) (hp : s.pending = .packet p :: rest) (hd : decode p = .ok i) :
    step s = exec i { s with pending := rest } := by
  rw [← State.popInput_eq hp]
  simp [step, State.fetch, hp, hr, hd]

/-- A step on a packet that is not empty, outside reset, ends as an operation does. -/
theorem step_answers (hr : s.inReset = false) (hne : p ≠ []) (hp : s.pending = .packet p :: rest) :
    Answers answeredStatuses { s with pending := rest } (step s) := by
  cases hd : decode p with
  | ok i =>
    rw [step_of_decode_ok hr hp hd]
    exact (exec_answers i _).mono (statusesOf_subset i)
  | error e =>
    obtain ⟨st, he, hst⟩ := exists_portStatus hne hd
    rw [step_of_decode_error hr hp hd he]
    exact .raised st hst

theorem step_of_inReset (hr : s.inReset = true) (hp : s.pending = .packet p :: rest) :
    step s = .refused .operationDuringReset := by
  simp [step, State.fetch, hp, hr]

theorem step_of_empty_packet (hr : s.inReset = false) (hp : s.pending = .packet [] :: rest) :
    step s = .fault .emptyPacket := by
  simp [step, State.fetch, hp, hr, decode]

/-- A step on a packet goes on only outside reset and with an opcode in the packet. -/
theorem answerable_of_step_next {t : State} (hp : s.pending = .packet p :: rest) (h : step s = .next t) :
    s.inReset = false ∧ p ≠ [] := by
  cases hr : s.inReset with
  | true =>
    rw [step_of_inReset hr hp] at h
    nomatch h
  | false =>
    refine ⟨rfl, ?_⟩
    rintro rfl
    rw [step_of_empty_packet hr hp] at h
    nomatch h

end

/-- Settles O7: a step on the packet ends as an operation does, with a status that is not TIMEOUT. -/
theorem everyPacketGetsOneResponse : Obligations.EveryPacketGetsOneResponse := by
  unfold Obligations.EveryPacketGetsOneResponse
  intro s p rest hr hne hp
  obtain ⟨t, st, body, hstep, hpending, hreset, hresp, hst, hbody⟩ := (step_answers hr hne hp).exists_response
  have hmem : st ∈ answeredStatuses := hst.elim (fun h => h ▸ by decide) id
  exact ⟨t, st, body, hstep, hpending, hreset.trans hr, hresp, hmem, hbody⟩

/-- Settles O9: an operation, and the port for a packet that carries none, either answers OK or sends the raised status and writes
nothing else; R56's table leaves the framer's operations ILLEGAL_OP alone. -/
theorem raisedStatusesWriteNothing : Obligations.RaisedStatusesWriteNothing := by
  unfold Obligations.RaisedStatusesWriteNothing
  refine ⟨?operation, ?port, ?framer⟩
  case operation =>
    intro i s t st body hexec hresp hst
    obtain ⟨-, ht⟩ := ((hexec ▸ exec_answers i s).ok_or_raised hresp).resolve_left hst
    exact ht
  case port =>
    intro s t p rest st body hp hstep hresp hst
    obtain ⟨hr, hne⟩ := answerable_of_step_next hp hstep
    obtain ⟨-, ht⟩ := ((hstep ▸ step_answers hr hne hp).ok_or_raised hresp).resolve_left hst
    exact ht
  case framer =>
    intro i s t st body hi hexec hresp
    obtain hok | ⟨hmem, -⟩ := (hexec ▸ exec_answers i s).ok_or_raised hresp
    · exact .inl hok
    · simpa using statusesOf_subset_of_not_pure hi hmem

end Sys2Proof.Machine
end

section
/-! PROOFS. Reset and the framer's own resets (70_reset_and_hazards.md R173, R174). -/

namespace Sys2Proof.Machine

open Sys2Proof

/-! ### The phase IDLE (R26) -/

/-- IDLE is the phase of the empty buffer and of no other. -/
theorem State.phase_eq_idle_iff (s : State) : s.phase = .idle ↔ s.frmBuf = [] := by
  rw [← List.length_eq_zero_iff, State.phase]
  split
  case isTrue h => simp [h]
  case isFalse h => split <;> simp [h]

theorem State.phase_of_frmBuf_nil {s : State} (h : s.frmBuf = []) : s.phase = .idle := s.phase_eq_idle_iff.mpr h

/-! ### The reset input (R173) -/

/-- A step on the reset input takes it and does the reset action, whether or not the input was held already. -/
theorem step_of_resetAssert {s : State} {rest : List PortInput} (hp : s.pending = .resetAssert :: rest) :
    step s = .next (State.assertReset { s with pending := rest }) := by
  rw [← State.popInput_eq hp]
  simp [step, State.fetch, hp]

/-- Settles O12: the reset action writes the framer's two fields, and neither the configuration nor the responses. -/
theorem resetInputRestoresResetValues : Obligations.ResetInputRestoresResetValues := by
  unfold Obligations.ResetInputRestoresResetValues
  intro s rest hp
  exact ⟨_, step_of_resetAssert hp, State.assertReset_frmVariant _, State.assertReset_frmBuf _, State.assertReset_cfg _,
    State.assertReset_responses _⟩

/-! ### The three resets (R174) -/

/-- FRM.CFG of a variant that is not reserved leaves the framer idle in that variant. -/
theorem exec_frmCfg_idle {v : Byte} {w : Variant} (hv : variantOfByte v = some w) (s : State) :
    ∃ t, exec (.frmCfg v) s = .next t ∧ t.frmVariant = w ∧ t.frmBuf = [] ∧ t.phase = .idle :=
  ⟨_, exec_frmCfg_of_variant hv s, rfl, rfl, State.phase_of_frmBuf_nil rfl⟩

/-- Settles O13: each of the three empties FRM_BUF, which is to be IDLE; they differ in what becomes of FRM_VARIANT. -/
theorem threeResetsLeaveTheFramerIdle : Obligations.ThreeResetsLeaveTheFramerIdle := by
  unfold Obligations.ThreeResetsLeaveTheFramerIdle
  refine ⟨?reset, ?frmReset, ?cfgInstr, ?cfgPlate⟩
  case reset =>
    intro s rest hp
    exact ⟨_, step_of_resetAssert hp, State.assertReset_frmVariant _, State.assertReset_frmBuf _,
      State.phase_of_frmBuf_nil (State.assertReset_frmBuf _)⟩
  case frmReset => exact fun s => ⟨_, exec_frmReset s, rfl, rfl, State.phase_of_frmBuf_nil rfl⟩
  case cfgInstr => exact exec_frmCfg_idle rfl
  case cfgPlate => exact exec_frmCfg_idle rfl

end Sys2Proof.Machine
end

section
/-! PROOFS. Encodings (30_encoding.md A.1, A.2): the decoder and the encoder of command packets undo each other. -/

namespace Sys2Proof

/-! ### From an operation to its packet and back -/

/-- A SEQ that stands last in a packet is read back from its bytes. -/
theorem takeSeq_bytesOfSeq_last {b : List Byte} (h : b.length ≤ 65535) : takeSeq (bytesOfSeq b) = some (b, []) := by
  simpa using takeSeq_bytesOfSeq h []

@[simp] theorem takeU16_bytesOfU16_last (v : U16) : takeU16 (bytesOfU16 v) = some (v, []) := by
  simpa using takeU16_bytesOfU16 v []

theorem seqFits_iff {b : List Byte} : seqFits b = true ↔ b.length ≤ 65535 := decide_eq_true_iff

/-- The operands of a well-formed operation are read back, field by field, in the order they were written (R51, R54). -/
theorem decodeOperands_encodeOperands {i : Instr} (h : i.wellFormed = true) :
    decodeOperands i.opcode (encodeOperands i) = some i := by
  cases i with
  | pAddr n => rfl
  | frmReset => rfl
  | frmCfg v => rfl
  | ckSum b s n =>
    simp [decodeOperands, encodeOperands, Instr.opcode, takeSeq_bytesOfSeq (seqFits_iff.1 h), takeU16_bytesOfU16]
  | ckSumEnd b s => simp [decodeOperands, encodeOperands, Instr.opcode, takeSeq_bytesOfSeq (seqFits_iff.1 h)]
  | ckSumRng b s e =>
    simp [decodeOperands, encodeOperands, Instr.opcode, takeSeq_bytesOfSeq (seqFits_iff.1 h), takeU16_bytesOfU16]
  | ckVerify v f | decI v f | encI a c f | encP a c f | decP f | frmFeed f =>
    simp [decodeOperands, encodeOperands, Instr.opcode, takeU8, takeSeq_bytesOfSeq_last (seqFits_iff.1 h)]

/-! ### From a packet to its operation and back -/

/-- What `read` takes for an operation, once the operand bytes `pre` have been read, is a well-formed operation of opcode `o` whose
operand bytes are `pre` and what it was given: nothing was skipped and nothing read twice. -/
def ReadsBack (o : Opcode) (pre : List Byte) (read : List Byte → Option Instr) : Prop :=
  ∀ bs i, read bs = some i → i.opcode = o ∧ i.wellFormed = true ∧ encodeOperands i = pre ++ bs

section
variable {o : Opcode} {pre : List Byte}

theorem ReadsBack.takeEnd {i : Instr} (hw : i.wellFormed = true) (hpre : encodeOperands i = pre) :
    ReadsBack i.opcode pre (takeEnd i) := by
  intro bs j h
  obtain ⟨rfl, rfl⟩ := takeEnd_eq_some.1 h
  exact ⟨rfl, hw, by rw [hpre, List.append_nil]⟩

theorem ReadsBack.takeU8 {read : Byte → List Byte → Option Instr} (h : ∀ b, ReadsBack o (pre ++ [b]) (read b)) :
    ReadsBack o pre fun bs => takeU8 bs >>= fun (b, rest) => read b rest := by
  intro bs i hi
  obtain ⟨⟨b, rest⟩, hb, hread⟩ := Option.bind_eq_some_iff.1 hi
  obtain rfl := takeU8_eq_some.1 hb
  simpa using h b rest i hread

theorem ReadsBack.takeU16 {read : U16 → List Byte → Option Instr} (h : ∀ v, ReadsBack o (pre ++ bytesOfU16 v) (read v)) :
    ReadsBack o pre fun bs => takeU16 bs >>= fun (v, rest) => read v rest := by
  intro bs i hi
  obtain ⟨⟨v, rest⟩, hv, hread⟩ := Option.bind_eq_some_iff.1 hi
  obtain rfl := takeU16_eq_some.1 hv
  simpa using h v rest i hread

theorem ReadsBack.takeSeq {read : List Byte → List Byte → Option Instr}
    (h : ∀ b, seqFits b = true → ReadsBack o (pre ++ bytesOfSeq b) (read b)) :
    ReadsBack o pre fun bs => takeSeq bs >>= fun (b, rest) => read b rest := by
  intro bs i hi
  obtain ⟨⟨b, rest⟩, hb, hread⟩ := Option.bind_eq_some_iff.1 hi
  obtain ⟨hfits, rfl⟩ := takeSeq_eq_some hb
  simpa using h b (seqFits_iff.2 hfits) rest i hread

end

/-- The decoder takes the operands of every opcode from exactly the bytes the encoder writes (R51, R54). -/
theorem decodeOperands_readsBack (o : Opcode) : ReadsBack o [] (decodeOperands o) := by
  cases o with
  | ckSum => exact .takeSeq fun b hb => .takeU16 fun s => .takeU16 fun n => .takeEnd (i := .ckSum b s n) hb rfl
  | ckSumEnd => exact .takeSeq fun b hb => .takeU16 fun s => .takeEnd (i := .ckSumEnd b s) hb rfl
  | ckSumRng => exact .takeSeq fun b hb => .takeU16 fun s => .takeU16 fun e => .takeEnd (i := .ckSumRng b s e) hb rfl
  | ckVerify => exact .takeU8 fun v => .takeSeq fun f hf => .takeEnd (i := .ckVerify v f) hf rfl
  | encI => exact .takeU8 fun a => .takeU8 fun c => .takeSeq fun p hp => .takeEnd (i := .encI a c p) hp rfl
  | decI => exact .takeU8 fun pcc => .takeSeq fun f hf => .takeEnd (i := .decI pcc f) hf rfl
  | pAddr => exact .takeU8 fun n => .takeEnd (i := .pAddr n) rfl rfl
  | encP => exact .takeU8 fun a => .takeU8 fun c => .takeSeq fun p hp => .takeEnd (i := .encP a c p) hp rfl
  | decP => exact .takeSeq fun f hf => .takeEnd (i := .decP f) hf rfl
  | frmReset => exact .takeEnd rfl rfl
  | frmCfg => exact .takeU8 fun v => .takeEnd (i := .frmCfg v) rfl rfl
  | frmFeed => exact .takeSeq fun c hc => .takeEnd (i := .frmFeed c) hc rfl

/-- What a decoding tells: the operation is well formed and the packet is its encoding. -/
theorem encode_of_decode {p : List Byte} {i : Instr} (h : decode p = .ok i) : i.wellFormed = true ∧ encode i = p := by
  match p with
  | [] => nomatch h
  | opc :: bs =>
    cases ho : Opcode.ofByte opc with
    | none =>
      rw [decode_of_ofByte_none ho] at h
      nomatch h
    | some o =>
      obtain rfl := Opcode.byte_of_ofByte ho
      cases hd : decodeOperands o bs with
      | none =>
        rw [decode_byte_of_none hd] at h
        nomatch h
      | some j =>
        rw [decode_byte_of_some hd] at h
        obtain rfl := Except.ok.inj h
        obtain ⟨rfl, hw, hbs⟩ := decodeOperands_readsBack o bs j hd
        exact ⟨hw, congrArg _ hbs⟩

end Sys2Proof

namespace Sys2Proof.Machine

open Sys2Proof

/-- Settles O1: the opcode byte names its opcode, and each operand is read back from the bytes it was written as. -/
theorem decodeInvertsEncode : Obligations.DecodeInvertsEncode := by
  unfold Obligations.DecodeInvertsEncode
  exact fun i h => decode_byte_of_some (decodeOperands_encodeOperands h)

/-- Settles O2: the decoder takes every byte of the packet once, each for the field the encoder writes there. -/
theorem encodeInvertsDecode : Obligations.EncodeInvertsDecode := by
  unfold Obligations.EncodeInvertsDecode
  exact fun p i h => encode_of_decode h

/-- Settles O3, by running the decoder and the assembler on the packets written out. -/
theorem writtenPacketsDecode : Obligations.WrittenPacketsDecode := by
  unfold Obligations.WrittenPacketsDecode
  refine ⟨rfl, ?assembled, rfl, rfl, rfl, rfl⟩
  case assembled => decide

/-- Settles O6: taking a packet that decodes leaves its operation to run, and only well-formed operations are decoded. -/
theorem stepRunsTheDecodedOperation : Obligations.StepRunsTheDecodedOperation := by
  unfold Obligations.StepRunsTheDecodedOperation
  intro s p rest i hr hp hd
  obtain ⟨hw, -⟩ := encode_of_decode hd
  exact ⟨hw, step_of_decode_ok hr hp hd⟩

end Sys2Proof.Machine
end

section
/-! PROOFS. The machine as a whole: what an operation and a step can do, and what every step keeps (10_state.md sections 2, 4 and 6;
20_memory.md sections 4 and 6; 70_reset_and_hazards.md section 1). -/

namespace Sys2Proof.Machine

open Sys2Proof

/-! ### What an operation writes (R43) -/

/-- `Writes s i t`: operation `i` takes state `s` to `t`. It answers and writes nothing else, or it is a framer operation that writes
the framer's state as its rule says (R135, R137, R139). -/
inductive Writes (s : State) : Instr → State → Prop where
  | nothing (i : Instr) (r : List Byte) : Writes s i (s.answered r)
  | frmReset (r : List Byte) : Writes s .frmReset (State.answered { s with frmBuf := [] } r)
  | frmCfg {v : Byte} {w : Variant} (hv : variantOfByte v = some w) (r : List Byte) :
      Writes s (.frmCfg v) (State.answered { s with frmVariant := w, frmBuf := [] } r)
  | frmFeed (chunk r : List Byte) :
      Writes s (.frmFeed chunk) (State.answered { s with frmBuf := (feedBytes s.cfg s.frmVariant chunk s.frmBuf).2 } r)

/-- Two configurations that are equal but for PLATE_SYS_ADDR. -/
def EqButSysAddr (cfg cfg' : Config) : Prop := ∃ x, cfg' = { cfg with plateSysAddr := x }

theorem EqButSysAddr.refl (cfg : Config) : EqButSysAddr cfg cfg := ⟨cfg.plateSysAddr, rfl⟩

/-- An operation that ends as a meaning `o` does, and never refuses, sends one response, which `o` fixes. -/
theorem exists_response_of_finish {i : Instr} {cfg : Config} {o : Except Raise Result} {allowed : List Byte}
    (hexec : ∀ s : State, EqButSysAddr cfg s.cfg → exec i s = s.finish o) (h : RaisesOnly allowed o) :
    ∃ r, ∀ s : State, EqButSysAddr cfg s.cfg → exec i s = .next (s.answered r) := by
  match o with
  | .ok r => exact ⟨0x00 :: encodeResult r, hexec⟩
  | .error x =>
    obtain ⟨e, rfl, -⟩ := h x rfl
    exact ⟨[e.code], hexec⟩

/-- A pure operation sends one response, which its operands and the configuration fix, PLATE_SYS_ADDR left out (R43, R117). -/
theorem exec_of_isPure {i : Instr} (h : isPure i = true) (cfg : Config) :
    ∃ r, ∀ s : State, EqButSysAddr cfg s.cfg → exec i s = .next (s.answered r) := by
  have hrange : ErrorStatus.outOfRange.code ∈ ([0x05] : List Byte) := by decide
  cases i with
  | ckSum b start n => exact exists_response_of_finish (fun _ _ => rfl) (.require hrange fun _ => .ok _)
  | ckSumEnd b start => exact exists_response_of_finish (fun _ _ => rfl) (.require hrange fun _ => .ok _)
  | ckSumRng b start stop => exact exists_response_of_finish (fun _ _ => rfl) (.require hrange fun _ => .ok _)
  | pAddr n => exact exists_response_of_finish (fun _ _ => rfl) (.require hrange fun _ => .ok _)
  | ckVerify v f =>
    cases hv : variantOfByte v with
    | none => exact ⟨_, fun s _ => exec_ckVerify_reserved s f hv⟩
    | some w =>
      refine ⟨[0x00, if ckOk cfg w f then 0x01 else 0x00], fun s ⟨x, hx⟩ => ?_⟩
      rw [exec_ckVerify_of_variant hv, hx]
      rfl
  | encI a c p =>
    refine exists_response_of_finish (fun s ⟨x, hx⟩ => ?_) (encodeInstrFrame_raisesOnly cfg a c p)
    rw [exec, execEncI, hx]
    rfl
  | decI pcc f =>
    refine exists_response_of_finish (fun s ⟨x, hx⟩ => ?_) (decodeInstrFrame_raisesOnly cfg pcc f)
    rw [exec, execDecI, hx]
    rfl
  | encP a c p => exact exists_response_of_finish (fun _ _ => rfl) (encodePlateFrame_raisesOnly a c p)
  | decP f =>
    refine exists_response_of_finish (fun s ⟨x, hx⟩ => ?_) (decodePlateFrame_raisesOnly cfg f)
    rw [exec, execDecP, hx]
    rfl
  | frmReset => nomatch h
  | frmCfg v => nomatch h
  | frmFeed c => nomatch h

/-- The drain loop does not look at PLATE_SYS_ADDR (R117). -/
theorem drainLoop_sysAddr (cfg : Config) (v : Variant) (x : Byte) (fuel : Nat) (buf : List Byte) :
    drainLoop { cfg with plateSysAddr := x } v fuel buf = drainLoop cfg v fuel buf := by
  have hjudge : judge { cfg with plateSysAddr := x } v = judge cfg v := by cases v <;> rfl
  have hclassify : classify { cfg with plateSysAddr := x } v = classify cfg v := rfl
  induction fuel generalizing buf with
  | zero => rfl
  | succ fuel ih => simp only [drainLoop_succ, ih, hjudge, hclassify]

theorem feedBytes_sysAddr (cfg : Config) (v : Variant) (x : Byte) (chunk buf : List Byte) :
    feedBytes { cfg with plateSysAddr := x } v chunk buf = feedBytes cfg v chunk buf := by
  induction chunk generalizing buf with
  | nil => rfl
  | cons b chunk ih => simp only [feedBytes_cons, drain, drainLoop_sysAddr, ih]

/-- A framer operation sends one response and writes the framer's state; what it sends and writes is fixed by its operands, the
framer's state and the configuration, PLATE_SYS_ADDR left out (R43, R117). FRM.CFG alone writes another FRM_VARIANT. -/
theorem exec_of_not_isPure {i : Instr} (h : isPure i = false) (cfg : Config) (v : Variant) (buf : List Byte) :
    ∃ (v' : Variant) (buf' r : List Byte), (i.opcode ≠ .frmCfg → v' = v) ∧
      ∀ s : State, EqButSysAddr cfg s.cfg → s.frmVariant = v → s.frmBuf = buf →
        exec i s = .next (State.answered { s with frmVariant := v', frmBuf := buf' } r) := by
  cases i with
  | frmReset =>
    refine ⟨v, [], [0x00], fun _ => rfl, fun s _ hv _ => ?_⟩
    subst hv
    exact exec_frmReset s
  | frmCfg b =>
    cases hb : variantOfByte b with
    | none =>
      refine ⟨v, buf, [0x07], fun _ => rfl, fun s _ hv hbuf => ?_⟩
      subst hv hbuf
      exact exec_frmCfg_reserved s hb
    | some w => exact ⟨w, [], [0x00], fun hne => absurd rfl hne, fun s _ _ _ => exec_frmCfg_of_variant hb s⟩
  | frmFeed chunk =>
    refine ⟨v, (feedBytes cfg v chunk buf).2, feedResponse (feedBytes cfg v chunk buf).1, fun _ => rfl, ?_⟩
    intro s ⟨x, hx⟩ hv hbuf
    subst hv hbuf
    rw [exec_frmFeed, hx, feedBytes_sysAddr]
    rfl
  | _ => nomatch h

/-- All that an operation can do. -/
theorem writes_of_exec {i : Instr} {s t : State} (h : exec i s = .next t) : Writes s i t := by
  cases hp : isPure i with
  | true =>
    obtain ⟨r, hr⟩ := exec_of_isPure hp s.cfg
    rw [hr s (.refl _)] at h
    cases h
    exact .nothing i r
  | false =>
    cases i with
    | frmReset =>
      cases h
      exact .frmReset _
    | frmCfg v =>
      cases hv : variantOfByte v with
      | none =>
        rw [exec_frmCfg_reserved s hv] at h
        cases h
        exact .nothing _ _
      | some w =>
        rw [exec_frmCfg_of_variant hv] at h
        cases h
        exact .frmCfg hv _
    | frmFeed chunk =>
      rw [exec_frmFeed] at h
      cases h
      exact .frmFeed chunk _
    | _ => nomatch hp

/-- Every operation completes: none faults and none is refused. -/
theorem exec_completes (i : Instr) (s : State) : ∃ t, exec i s = .next t := by
  obtain ⟨t, -, -, ht, -⟩ := (exec_answers i s).exists_response
  exact ⟨t, ht⟩

/-! ### What a step does -/

/-- A step on the released reset input takes it and does nothing else. -/
theorem step_of_resetRelease {s : State} {rest : List PortInput} (hp : s.pending = .resetRelease :: rest) :
    step s = .next { s with inReset := false, pending := rest } := by
  have hpop : s.popInput.releaseReset = { s with inReset := false, pending := rest } := by
    rw [State.popInput_eq hp]
    rfl
  rw [← hpop]
  simp [step, State.fetch, hp]

/-- With no input the block waits (R42). -/
theorem step_of_pending_nil {s : State} (hp : s.pending = []) : step s = .next s := by
  simp [step, State.fetch, hp]

/-- All that a step can do when it goes on: wait, take a change of the reset input, answer a packet that carries no operation, or run
the operation of a packet. -/
theorem step_cases {s t : State} (h : step s = .next t) :
    (s.pending = [] ∧ t = s) ∨
    (∃ rest, s.pending = .resetAssert :: rest ∧ t = State.assertReset { s with pending := rest }) ∨
    (∃ rest, s.pending = .resetRelease :: rest ∧ t = { s with inReset := false, pending := rest }) ∨
    (∃ p rest, s.pending = .packet p :: rest ∧
      ((∃ r, t = State.answered { s with pending := rest } r) ∨
       ∃ i, encode i = p ∧ Writes { s with pending := rest } i t)) := by
  rcases hp : s.pending with _ | ⟨x, rest⟩
  · cases (step_of_pending_nil hp).symm.trans h
    exact .inl ⟨rfl, rfl⟩
  · right
    cases x with
    | resetAssert =>
      cases (step_of_resetAssert hp).symm.trans h
      exact .inl ⟨rest, rfl, rfl⟩
    | resetRelease =>
      cases (step_of_resetRelease hp).symm.trans h
      exact .inr (.inl ⟨rest, rfl, rfl⟩)
    | packet p =>
      refine .inr (.inr ⟨p, rest, rfl, ?_⟩)
      obtain ⟨hr, hne⟩ := answerable_of_step_next hp h
      cases hd : decode p with
      | ok i =>
        obtain ⟨-, hi⟩ := encode_of_decode hd
        rw [step_of_decode_ok hr hp hd] at h
        exact .inr ⟨i, hi, writes_of_exec h⟩
      | error e =>
        obtain ⟨st, he, -⟩ := exists_portStatus hne hd
        cases (step_of_decode_error hr hp hd he).symm.trans h
        exact .inl ⟨_, rfl⟩

/-! ### The invariant of FRM_BUF (R25) -/

/-- The invariant of FRM_BUF, of a buffer under a configuration and a variant (R25). -/
def BufSound (cfg : Config) (v : Variant) (buf : List Byte) : Prop :=
  (buf = [] ∨ buf.head? = some (rxHead v)) ∧ buf.length ≤ cfg.maxFrame ∧
  (cfg.earlyReject = true → hdrLen v ≤ buf.length →
    6 ≤ declLen v buf ∧ declLen v buf ≤ cfg.maxFrame ∧ buf.length < declLen v buf)

theorem hdrLen_le_four (v : Variant) : hdrLen v ≤ 4 := by
  cases v <;> decide

theorem hdrLen_pos (v : Variant) : 0 < hdrLen v := by
  cases v <;> decide

theorem State.bufInv_iff (s : State) : s.bufInv ↔ BufSound s.cfg s.frmVariant s.frmBuf := Iff.rfl

theorem bufSound_nil (cfg : Config) (v : Variant) : BufSound cfg v [] := by
  exact ⟨.inl rfl, Nat.zero_le _, fun _ hh => absurd (hdrLen_pos v) hh.not_gt⟩

section
variable {cfg : Config} {v : Variant}

/-- A hunted buffer that waits has the invariant: each cause to wait gives its part. -/
theorem bufSound_of_wait (hmax : 6 ≤ cfg.maxFrame) {buf : List Byte} (ha : buf = [] ∨ buf.head? = some (rxHead v))
    (hj : judge cfg v buf = .wait) : BufSound cfg v buf := by
  have hhdr := hdrLen_le_four v
  rcases judge_cases cfg v buf with
    ⟨-, hwait⟩ | ⟨hj', _⟩ | ⟨hj', _⟩ | ⟨hj', _⟩ | ⟨hj', _⟩ | ⟨hj', _⟩
  case inl =>
    obtain hshort | ⟨-, -, h6, hm, hl⟩ | ⟨-, he, hm, -⟩ := hwait
    · exact ⟨ha, by omega, fun _ hh => by omega⟩
    · exact ⟨ha, by omega, fun _ _ => ⟨h6, hm, hl⟩⟩
    · exact ⟨ha, hm, fun he' => absurd (he.symm.trans he') (by decide)⟩
  all_goals cases hj.symm.trans hj'

/-- What `Drain()` leaves has the invariant, whatever it was given: it stops only where a hunted buffer waits. -/
theorem drain_bufSound (hmax : 6 ≤ cfg.maxFrame) (buf : List Byte) : BufSound cfg v (drain cfg v buf).2 := by
  induction buf using drain_induct cfg v with
  | wait buf hj =>
    rw [drain_eq, hj]
    exact bufSound_of_wait hmax (hunt_atHead v buf) hj
  | reject buf r hj ih =>
    rw [drain_eq, hj]
    exact ih
  | complete buf len hj ih =>
    rw [drain_eq, hj]
    exact ih

/-- Feeding keeps the invariant. -/
theorem feedBytes_bufSound (hmax : 6 ≤ cfg.maxFrame) (chunk : List Byte) {buf : List Byte} (h : BufSound cfg v buf) :
    BufSound cfg v (feedBytes cfg v chunk buf).2 := by
  induction chunk generalizing buf with
  | nil => exact h
  | cons b chunk ih => exact ih (drain_bufSound hmax _)

end

/-- A configuration that meets R9's constraints admits the shortest frame. -/
theorem Config.six_le_maxFrame {cfg : Config} (h : cfg.wf = true) : 6 ≤ cfg.maxFrame := by
  simp only [Config.wf, Bool.and_eq_true, decide_eq_true_eq] at h
  exact h.1.1

/-- Every operation keeps the invariant. -/
theorem Writes.inv {s t : State} {i : Instr} (h : Writes s i t) (hs : s.inv) : t.inv := by
  obtain ⟨hcfg, hbuf⟩ := hs
  cases h with
  | nothing i r => exact ⟨hcfg, hbuf⟩
  | frmReset r => exact ⟨hcfg, (State.bufInv_iff _).2 (bufSound_nil ..)⟩
  | frmCfg hv r => exact ⟨hcfg, (State.bufInv_iff _).2 (bufSound_nil ..)⟩
  | frmFeed chunk r =>
    rw [State.bufInv_iff] at hbuf
    exact ⟨hcfg, (State.bufInv_iff _).2 (feedBytes_bufSound (Config.six_le_maxFrame hcfg) chunk hbuf)⟩

/-- Settles O51: what the drain loop leaves waits, which is the invariant; every other write of FRM_BUF empties it. -/
theorem everyStepKeepsTheInvariant : Obligations.EveryStepKeepsTheInvariant := by
  unfold Obligations.EveryStepKeepsTheInvariant
  intro s t hs h
  obtain ⟨-, rfl⟩ | ⟨rest, -, rfl⟩ | ⟨rest, -, rfl⟩ | ⟨p, rest, -, ⟨r, rfl⟩ | ⟨i, -, hi⟩⟩ := step_cases h
  · exact hs
  · obtain ⟨hcfg, -⟩ := hs
    exact ⟨hcfg, (State.bufInv_iff _).2 (bufSound_nil ..)⟩
  · exact hs
  · exact hs
  · exact hi.inv hs

/-- INSTR_LAYOUT of the hardware meets R108's constraints, whichever table the free value is. -/
theorem layoutsAdmissible_hw : layoutsAdmissible Config.hwInstrLayout = true := by
  unfold Config.hwInstrLayout
  split
  · assumption
  · decide

/-- The configuration of the hardware meets R9's constraints. -/
theorem Config.hw_wf : Config.hw.wf = true := by
  have hmeas : 0x26 ∈ Config.hw.plateMeasCodes := List.mem_cons_self ..
  have hmax : 6 ≤ Config.hw.maxFrame := by decide
  have hlayouts : layoutsAdmissible Config.hw.instrLayout = true := layoutsAdmissible_hw
  rw [Config.wf, hlayouts, decide_eq_true hmeas, decide_eq_true hmax]
  rfl

/-- Settles O52: the hardware's configuration meets its constraints, and the empty buffer is sound and idle. -/
theorem resetMeetsTheInvariant : Obligations.ResetMeetsTheInvariant := by
  unfold Obligations.ResetMeetsTheInvariant
  exact ⟨⟨Config.hw_wf, (State.bufInv_iff _).2 (bufSound_nil ..)⟩, State.phase_of_frmBuf_nil State.reset_frmBuf⟩

/-! ### Statuses and stops -/

/-- Every operation can answer OK (R56). -/
theorem ok_mem_statusesOf (i : Instr) : 0x00 ∈ statusesOf i := by
  cases i <;> simp [statusesOf]

/-- Settles O8: an operation ends with OK or by raising a status of its row in R56's table. -/
theorem everyOperationAnswersItsStatuses : Obligations.EveryOperationAnswersItsStatuses := by
  unfold Obligations.EveryOperationAnswersItsStatuses
  intro i s
  obtain ⟨t, st, body, hexec, -, -, hresp, hst, hbody⟩ := (exec_answers i s).exists_response
  have hmem : st ∈ statusesOf i := hst.elim (fun h => h ▸ ok_mem_statusesOf i) id
  exact ⟨t, st, body, hexec, hresp, hmem, hbody⟩

/-- All that a step does when the machine stops. -/
theorem step_stops {s : State} (h : ∀ t, step s ≠ .next t) :
    (s.inReset = false ∧ (∃ rest, s.pending = .packet [] :: rest) ∧ step s = .fault .emptyPacket) ∨
    (s.inReset = true ∧ (∃ p rest, s.pending = .packet p :: rest) ∧ step s = .refused .operationDuringReset) := by
  rcases hp : s.pending with _ | ⟨x, rest⟩
  · exact absurd (step_of_pending_nil hp) (h s)
  · cases x with
    | resetAssert => exact absurd (step_of_resetAssert hp) (h _)
    | resetRelease => exact absurd (step_of_resetRelease hp) (h _)
    | packet p =>
      cases hr : s.inReset with
      | true => exact .inr ⟨rfl, ⟨p, rest, rfl⟩, step_of_inReset hr hp⟩
      | false =>
        by_cases hne : p = []
        · subst hne
          exact .inl ⟨rfl, ⟨rest, rfl⟩, step_of_empty_packet hr hp⟩
        · obtain ⟨t, -, -, ht, -⟩ := (step_answers hr hne hp).exists_response
          exact absurd ht (h t)

/-- Settles O11: the fetch alone stops the machine, on the packet of no byte and on a packet during reset. -/
theorem onlyTheNamedStopsHappen : Obligations.OnlyTheNamedStopsHappen := by
  unfold Obligations.OnlyTheNamedStopsHappen
  refine ⟨fun s r h => ?fault, fun s r h => ?refusal, exec_completes⟩
  case fault =>
    obtain ⟨hr, hp, -⟩ | ⟨-, -, hstep⟩ := step_stops (s := s) (by rw [h]; nofun)
    · exact ⟨hr, hp⟩
    · nomatch h.symm.trans hstep
  case refusal =>
    obtain ⟨-, -, hstep⟩ | ⟨hr, hp, hstep⟩ := step_stops (s := s) (by rw [h]; nofun)
    · nomatch h.symm.trans hstep
    · cases h.symm.trans hstep
      exact ⟨rfl, hr, hp⟩

/-- Settles O10: the fetch refuses the packet before it is decoded. -/
theorem packetsDuringResetAreRefused : Obligations.PacketsDuringResetAreRefused := by
  unfold Obligations.PacketsDuringResetAreRefused
  exact fun s p rest hr hp => step_of_inReset hr hp

/-- Settles O17: the cursor's mode decides each primitive, and every operation completes. -/
theorem mixedCursorUseIsRefused : Obligations.MixedCursorUseIsRefused := by
  unfold Obligations.MixedCursorUseIsRefused
  refine ⟨fun _ _ _ _ => ⟨rfl, rfl⟩, fun _ _ _ => ⟨rfl, rfl⟩, fun i s h => ?_⟩
  obtain ⟨t, ht⟩ := exec_completes i s
  nomatch ht.symm.trans h

/-- Settles O58: asserting the input does the reset action, which leaves the queue and the responses; releasing it clears `inReset`. -/
theorem resetInputIsHeldUntilReleased : Obligations.ResetInputIsHeldUntilReleased := by
  unfold Obligations.ResetInputIsHeldUntilReleased
  refine ⟨fun s rest hp => ?asserted, fun s rest hp => step_of_resetRelease hp⟩
  case asserted =>
    exact ⟨_, step_of_resetAssert hp, State.assertReset_inReset _, State.assertReset_pending _, State.assertReset_responses _⟩

/-! ### What operations depend on (20_memory.md sections 4 and 6) -/

/-- A framer with MAX_FRAME 6 that holds nothing: a single head byte waits in it, and a second one behind it declares 123 bytes. -/
def shortFramer : State where
  frmVariant := .instr
  frmBuf := []
  cfg := { instrCkStart := .one, plateRxTail := 0xEE, maxFrame := 6, earlyReject := true, instrLayout := [],
           plateMeasCodes := [0x26], plateSysAddr := 0x00, linkVariant := .instr }
  inReset := false
  pending := []
  responses := []

/-- Settles O53: a pure operation's response is fixed by operands and configuration, a framer operation writes the framer's state, and
the byte 0x7B, fed twice to a framer with MAX_FRAME 6, finds nothing the first time and OVERSIZE the second. -/
theorem pureOperationsOnlyAnswer : Obligations.PureOperationsOnlyAnswer := by
  unfold Obligations.PureOperationsOnlyAnswer
  refine ⟨fun i cfg hi => ?pure, fun i s hi => ?framer, ?notIdempotent⟩
  case pure =>
    obtain ⟨r, hr⟩ := exec_of_isPure hi cfg
    exact ⟨r, fun s hs => hr s (hs ▸ .refl _)⟩
  case framer =>
    obtain ⟨v, buf, r, hv, hexec⟩ := exec_of_not_isPure hi s.cfg s.frmVariant s.frmBuf
    exact ⟨v, buf, r, hexec s (.refl _) rfl rfl, hv⟩
  case notIdempotent =>
    exact ⟨[0x7B], shortFramer, _, _, _, _, exec_frmFeed _ _, exec_frmFeed _ _, rfl, rfl, by decide⟩

/-- Settles O54: a response touches neither the configuration nor the framer's state, and the framer's writes do not touch the
configuration, so each operation does the same in either order. -/
theorem transmitAndReceiveCommute : Obligations.TransmitAndReceiveCommute := by
  unfold Obligations.TransmitAndReceiveCommute
  intro i j s hi hj
  obtain ⟨r, hpure⟩ := exec_of_isPure hi s.cfg
  obtain ⟨v, buf, r', -, hframer⟩ := exec_of_not_isPure hj s.cfg s.frmVariant s.frmBuf
  refine ⟨v, buf, r, r', hpure s (.refl _), ?_, hframer s (.refl _) rfl rfl, ?_⟩
  · simpa [State.answered] using hframer (s.answered r) (.refl _) rfl rfl
  · simpa [State.answered] using hpure { s with frmVariant := v, frmBuf := buf, responses := s.responses ++ [r'] } (.refl _)

/-- Settles O56: what an operation sends and writes is fixed without PLATE_SYS_ADDR. -/
theorem systemAddressChangesNothing : Obligations.SystemAddressChangesNothing := by
  unfold Obligations.SystemAddressChangesNothing
  intro i s x
  cases hi : isPure i with
  | true =>
    obtain ⟨r, hr⟩ := exec_of_isPure hi s.cfg
    exact ⟨_, hr s (.refl _), hr { s with cfg := { s.cfg with plateSysAddr := x } } ⟨x, rfl⟩⟩
  | false =>
    obtain ⟨v, buf, r, -, hexec⟩ := exec_of_not_isPure hi s.cfg s.frmVariant s.frmBuf
    exact ⟨_, hexec s (.refl _) rfl rfl, hexec { s with cfg := { s.cfg with plateSysAddr := x } } ⟨x, rfl⟩ rfl rfl⟩

/-! ### Who writes what (10_state.md sections 2 and 4) -/

/-- An operation keeps the configuration, and adds to the responses. -/
theorem Writes.cfg_responses {s t : State} {i : Instr} (h : Writes s i t) :
    t.cfg = s.cfg ∧ ∃ sent, t.responses = s.responses ++ sent := by
  cases h with
  | nothing i r => exact ⟨rfl, [r], rfl⟩
  | frmReset r => exact ⟨rfl, [r], rfl⟩
  | frmCfg hv r => exact ⟨rfl, [r], rfl⟩
  | frmFeed chunk r => exact ⟨rfl, [r], rfl⟩

/-- Settles O55: no case of a step writes the configuration, and each adds a response or none. -/
theorem configurationIsReadOnly : Obligations.ConfigurationIsReadOnly := by
  unfold Obligations.ConfigurationIsReadOnly
  intro s t h
  obtain ⟨-, rfl⟩ | ⟨rest, -, rfl⟩ | ⟨rest, -, rfl⟩ | ⟨p, rest, -, ⟨r, rfl⟩ | ⟨i, -, hi⟩⟩ := step_cases h
  · exact ⟨rfl, [], (List.append_nil _).symm⟩
  · exact ⟨rfl, [], (List.append_nil _).symm⟩
  · exact ⟨rfl, [], (List.append_nil _).symm⟩
  · exact ⟨rfl, [r], rfl⟩
  · exact hi.cfg_responses

/-- A variant byte that is not reserved is 0x00 or 0x01 (R14). -/
theorem variantOfByte_eq_some {v : Byte} {w : Variant} (h : variantOfByte v = some w) :
    (v = 0x00 ∧ w = .instr) ∨ (v = 0x01 ∧ w = .plate) := by
  unfold variantOfByte at h
  split at h
  · cases h; exact .inl ⟨‹_›, rfl⟩
  split at h
  · cases h; exact .inr ⟨‹_›, rfl⟩
  · nomatch h

/-- FRM_VARIANT is written by FRM.CFG only, with the variant its packet names. -/
theorem Writes.frmVariant {s t : State} {i : Instr} (h : Writes s i t) (hne : t.frmVariant ≠ s.frmVariant) :
    (encode i = [0x41, 0x00] ∧ t.frmVariant = .instr) ∨ (encode i = [0x41, 0x01] ∧ t.frmVariant = .plate) := by
  cases h with
  | nothing i r => exact absurd rfl hne
  | frmReset r => exact absurd rfl hne
  | frmCfg hv r =>
    obtain ⟨rfl, rfl⟩ | ⟨rfl, rfl⟩ := variantOfByte_eq_some hv
    · exact .inl ⟨rfl, rfl⟩
    · exact .inr ⟨rfl, rfl⟩
  | frmFeed chunk r => exact absurd rfl hne

/-- FRM_BUF is written by the three FRM operations only. -/
theorem Writes.frmBuf {s t : State} {i : Instr} (h : Writes s i t) (hne : t.frmBuf ≠ s.frmBuf) :
    ∃ opc bs, encode i = opc :: bs ∧ opc ∈ ([0x40, 0x41, 0x42] : List Byte) := by
  cases h with
  | nothing i r => exact absurd rfl hne
  | frmReset r => exact ⟨0x40, _, rfl, by decide⟩
  | frmCfg hv r => exact ⟨0x41, _, rfl, by decide⟩
  | frmFeed chunk r => exact ⟨0x42, _, rfl, by decide⟩

/-- Settles O57: of the cases of a step, reset and the framer's operations alone write the framer's state, and a packet that decodes is
its operation's encoding. -/
theorem whoWritesTheFramerState : Obligations.WhoWritesTheFramerState := by
  unfold Obligations.WhoWritesTheFramerState
  intro s t h
  obtain ⟨-, rfl⟩ | ⟨rest, hp, rfl⟩ | ⟨rest, -, rfl⟩ | ⟨p, rest, hp, ⟨r, rfl⟩ | ⟨i, rfl, hi⟩⟩ := step_cases h
  · exact ⟨fun hne => absurd rfl hne, fun hne => absurd rfl hne⟩
  · exact ⟨fun _ => .inl ⟨rest, hp, rfl⟩, fun _ => .inl ⟨rest, hp⟩⟩
  · exact ⟨fun hne => absurd rfl hne, fun hne => absurd rfl hne⟩
  · exact ⟨fun hne => absurd rfl hne, fun hne => absurd rfl hne⟩
  · refine ⟨fun hne => ?_, fun hne => ?_⟩
    · obtain ⟨he, hv⟩ | ⟨he, hv⟩ := hi.frmVariant hne
      · exact .inr (.inl ⟨rest, he ▸ hp, hv⟩)
      · exact .inr (.inr ⟨rest, he ▸ hp, hv⟩)
    · obtain ⟨opc, bs, he, hmem⟩ := hi.frmBuf hne
      exact .inr ⟨opc, bs, rest, he ▸ hp, hmem⟩

end Sys2Proof.Machine
end

section
/-! PROOFS. What the checksum detects (41_checksum.md sections 1 and 3). -/

namespace Sys2Proof.Machine

open Sys2Proof

/-! ### The sum of a range when one byte of the sequence changes -/

section
variable {b : List Byte} {k start n : Nat} {x : Byte}

theorem getD_set_self (hk : k < b.length) : (b.set k x).getD k 0 = x := by
  rw [List.getD_eq_getElem?_getD, List.getElem?_set_self hk, Option.getD_some]

theorem getD_set_ne {j : Nat} (h : j ≠ k) : (b.set k x).getD j 0 = b.getD j 0 := by
  rw [List.getD_eq_getElem?_getD, List.getD_eq_getElem?_getD, List.getElem?_set_ne h.symm]

/-- A change of a byte outside the range leaves the sum. -/
theorem rangeSum_set_of_outside (h : k < start ∨ start + n ≤ k) : rangeSum (b.set k x) start n = rangeSum b start n := by
  refine Finset.sum_congr rfl fun j hj => ?_
  rw [Finset.mem_range] at hj
  rw [getD_set_ne (by omega)]

/-- A change of a byte in the range takes its old value off the sum and puts the new one there. -/
theorem rangeSum_set_add (hk : k < b.length) (hs : start ≤ k) (hn : k < start + n) :
    rangeSum (b.set k x) start n + (b.getD k 0).toNat = rangeSum b start n + x.toNat := by
  have hmem : k - start ∈ Finset.range n := Finset.mem_range.2 (by omega)
  have hidx : start + (k - start) = k := by omega
  have hrest : ∑ j ∈ (Finset.range n).erase (k - start), ((b.set k x).getD (start + j) 0).toNat =
      ∑ j ∈ (Finset.range n).erase (k - start), (b.getD (start + j) 0).toNat := by
    refine Finset.sum_congr rfl fun j hj => ?_
    rw [getD_set_ne (by have := Finset.ne_of_mem_erase hj; omega)]
  rw [rangeSum, rangeSum, ← Finset.sum_erase_add _ _ hmem, ← Finset.sum_erase_add _ _ hmem, hrest, hidx, getD_set_self hk]
  omega

theorem getD_toNat_ne (hk : k < b.length) (hx : b[k]? ≠ some x) : (b.getD k 0).toNat ≠ x.toNat := by
  rw [List.getElem?_eq_getElem hk] at hx
  rw [List.getD_eq_getElem _ _ hk, ne_eq, BitVec.toNat_inj]
  exact fun h => hx (congrArg some h)

/-- Two bytes that differ are less than 256 apart, so the sum mod 256 changes with any one byte of the range. -/
theorem rangeSum_set_mod_ne (hk : k < b.length) (hs : start ≤ k) (hn : k < start + n) (hx : b[k]? ≠ some x) :
    rangeSum (b.set k x) start n % 256 ≠ rangeSum b start n % 256 := by
  have hsum := rangeSum_set_add (x := x) hk hs hn
  have hne := getD_toNat_ne hk hx
  have hold := (b.getD k 0).isLt
  have hnew := x.isLt
  omega

end

/-! ### Detection properties of `Sum8` -/

/-- Any change of one byte in the range changes the sum. -/
theorem sum8_set_ne {b : List Byte} {start n k : Nat} {x : Byte} (hk : k < b.length) (hs : start ≤ k) (hn : k < start + n)
    (hx : b[k]? ≠ some x) : sum8 (b.set k x) start n ≠ sum8 b start n := by
  intro heq
  rw [sum8_eq_ofNat_rangeSum, sum8_eq_ofNat_rangeSum, eq_ofNat_byte_iff, BitVec.toNat_ofNat] at heq
  exact rangeSum_set_mod_ne hk hs hn hx heq.symm

/-- The sum of a range that is written out as the middle of a sequence. -/
theorem sum8_middle (pre mid post : List Byte) :
    sum8 (pre ++ mid ++ post) pre.length mid.length = .ofNat 8 (mid.map BitVec.toNat).sum := by
  rw [sum8, List.append_assoc, List.drop_left, List.take_left]

/-- Settles O22: one changed byte moves the sum by less than 256; the sum of the values is kept when one goes up and one down, when
they are reordered, and when a zero is put between them. -/
theorem checksumDetectsOneByte : Obligations.ChecksumDetectsOneByte := by
  unfold Obligations.ChecksumDetectsOneByte
  refine ⟨?oneByte, ?twoBytes, ?reordered, ?zero⟩
  case oneByte => exact fun b start n k x hlen hs hn hx => sum8_set_ne (by omega) hs hn hx
  case twoBytes =>
    intro pre post x y hx hy
    have hup : (x + 1).toNat = x.toNat + 1 := by bv_omega
    have hdown : (y - 1).toNat = y.toNat - 1 := by bv_omega
    have hsum : ([x + 1, y - 1].map BitVec.toNat).sum = ([x, y].map BitVec.toNat).sum := by
      simp only [List.map_cons, List.map_nil, List.sum_cons, List.sum_nil, hup, hdown]
      omega
    calc sum8 (pre ++ [x + 1, y - 1] ++ post) pre.length 2
        = .ofNat 8 ([x + 1, y - 1].map BitVec.toNat).sum := sum8_middle pre [x + 1, y - 1] post
      _ = sum8 (pre ++ [x, y] ++ post) pre.length 2 := hsum ▸ (sum8_middle pre [x, y] post).symm
  case reordered =>
    intro pre mid mid' post hperm
    rw [sum8_middle, sum8_middle, (hperm.map BitVec.toNat).sum_eq]
  case zero =>
    intro pre u v post
    have hlong : (u ++ 0x00 :: v).length = u.length + v.length + 1 := by simp; omega
    have hshort : (u ++ v).length = u.length + v.length := List.length_append
    rw [← hlong, ← hshort, sum8_middle, sum8_middle]
    simp

/-! ### Verification of a frame of two parts: what is summed, and checksum and tail -/

/-- The generator run on the first part of a sequence is the sum over that part in the whole (R85, R89). -/
theorem sum8_append_from {b : List Byte} {start : Nat} (h : start ≤ b.length) (rest : List Byte) :
    sum8 (b ++ rest) start (b.length - start) = ckGen b start := by
  rw [ckGen, sum8, sum8, List.drop_append_of_le_length h, ← List.length_drop, List.take_left, List.take_length]

theorem CkStart.offset_le_two (start : CkStart) : start.offset ≤ 2 := by
  cases start <;> decide

theorem ckStart_le_two (cfg : Config) (v : Variant) : ckStart cfg v ≤ 2 := by
  cases v with
  | plate => exact Nat.zero_le 2
  | instr => exact CkStart.offset_le_two _

/-- A frame verifies when the byte before its tail is the generator's sum of what stands before that (R91). -/
theorem ckOk_append_iff (cfg : Config) (v : Variant) {body : List Byte} (h : 4 ≤ body.length) (k t : Byte) :
    ckOk cfg v (body ++ [k, t]) = true ↔ k = ckGen body (ckStart cfg v) := by
  have hstart := ckStart_le_two cfg v
  have hlen : (body ++ [k, t]).length = body.length + 2 := List.length_append
  have hck : (body ++ [k, t])[body.length]? = some k := by
    rw [List.getElem?_append_right le_rfl, Nat.sub_self]
    rfl
  rw [ckOk, hlen, Nat.add_sub_cancel, hck, sum8_append_from (by omega), decide_eq_true (by omega : 6 ≤ body.length + 2),
    Bool.true_and, decide_eq_true_iff, Option.some.injEq]

theorem instrBody_length (a c : Byte) (p : List Byte) : (instrBody a c p).length = 4 + p.length := by
  rw [instrBody, List.length_append]
  rfl

theorem ckOk_instrFrame_iff (cfg : Config) (a c : Byte) (p : List Byte) (k t : Byte) :
    ckOk cfg .instr (instrFrame a c p k t) = true ↔ k = instrCk cfg.instrCkStart a c p := by
  rw [instrFrame_eq, ckOk_append_iff cfg .instr (by rw [instrBody_length]; omega), ckStart, ckGen_instrBody]

theorem ckOk_plateFrame_iff (cfg : Config) (h a c : Byte) (p : List Byte) (k t : Byte) :
    ckOk cfg .plate (plateFrame h a c p k t) = true ↔ k = plateCk h a c p := by
  rw [plateFrame_eq, ckOk_append_iff cfg .plate (by rw [plateBody_length]; omega), ckStart, ckGen_plateBody]

/-- Settles O23: each encoder puts the generator's sum where the verification looks for it. -/
theorem encodedFramesVerify : Obligations.EncodedFramesVerify := by
  unfold Obligations.EncodedFramesVerify
  have hInstr : variantOfByte 0x00 = some .instr := rfl
  have hPlate : variantOfByte 0x01 = some .plate := rfl
  refine ⟨fun a c p s hp => ⟨_, exec_encI_of_le a c hp s, ?_⟩, fun a c p s hp => ⟨_, exec_encP_of_le a c hp s, ?_⟩⟩
  · rw [exec_ckVerify_of_variant hInstr, if_pos ((ckOk_instrFrame_iff ..).2 rfl)]
  · rw [exec_ckVerify_of_variant hPlate, if_pos ((ckOk_plateFrame_iff ..).2 rfl)]

/-! ### Sensitivity of the verification (R91) -/

section
variable {f : List Byte} {k start : Nat} {x : Byte}

/-- A frame that verifies fails with one byte of its sum, or its checksum byte, changed. -/
theorem not_ckHolds_set (hx : f[k]? ≠ some x) (hs : start ≤ k) (hk : k ≤ f.length - 2) (h : ckHolds start f) :
    ¬ckHolds start (f.set k x) := by
  obtain ⟨hlen, hsum⟩ := h
  rintro ⟨-, hsum'⟩
  rw [List.length_set] at hsum'
  by_cases hck : k = f.length - 2
  · subst hck
    rw [rangeSum_set_of_outside (by omega), getD_set_self (by omega)] at hsum'
    exact getD_toNat_ne (by omega) hx (hsum.symm.trans hsum')
  · rw [getD_set_ne (Ne.symm hck)] at hsum'
    exact rangeSum_set_mod_ne (by omega) hs (by omega) hx (hsum'.trans hsum.symm)

/-- A byte before the sum or behind the checksum byte does not count. -/
theorem ckHolds_set_iff (hk : k < start ∨ f.length - 2 < k) (hstart : start ≤ 2) (hlen : 6 ≤ f.length) :
    ckHolds start (f.set k x) ↔ ckHolds start f := by
  rw [ckHolds, ckHolds, List.length_set, rangeSum_set_of_outside (by omega), getD_set_ne (by omega)]

end

theorem State.answered_inj {s : State} {r r' : List Byte} (h : s.answered r = s.answered r') : r = r' := by
  simpa [State.answered] using h

/-- What a verdict 0x01 of CK.VERIFY tells. -/
theorem ckHolds_of_exec_ckVerify {v : Byte} {w : Variant} (hv : variantOfByte v = some w) {f : List Byte} {s : State}
    (h : exec (.ckVerify v f) s = .next (s.answered [0x00, 0x01])) : ckHolds (ckStart s.cfg w) f := by
  by_contra hck
  rw [exec_ckVerify_of_fails hv hck] at h
  exact absurd (State.answered_inj (Host.Outcome.next.inj h)) (by decide)

/-- Settles O24: a covered byte, or the checksum byte, moves one side of the comparison alone; any other moves neither. -/
theorem verifySensitivity : Obligations.VerifySensitivity := by
  unfold Obligations.VerifySensitivity
  intro v w f k x s hv hx hk
  refine ⟨fun hs hcov hexec => ?covered, fun hout hlen => ?outside⟩
  case covered =>
    exact exec_ckVerify_of_fails hv (not_ckHolds_set hx hs hcov (ckHolds_of_exec_ckVerify hv hexec))
  case outside =>
    have hiff := ckHolds_set_iff (x := x) hout (ckStart_le_two s.cfg w) hlen
    by_cases hck : ckHolds (ckStart s.cfg w) f
    · rw [exec_ckVerify_of_holds hv hck, exec_ckVerify_of_holds hv (hiff.2 hck)]
    · rw [exec_ckVerify_of_fails hv hck, exec_ckVerify_of_fails hv (mt hiff.1 hck)]

end Sys2Proof.Machine
end

section
/-! PROOFS. The Instrument codec (42_codec_instrument.md): DEC.I (R104, R165), its round trip, truncation and sensitivity. -/

namespace Sys2Proof.Machine

open Sys2Proof

/-! ### The parts of an Instrument frame (R60) -/

section
variable (a c : Byte) (p : List Byte) (k t : Byte)

theorem instrFrame_length : (instrFrame a c p k t).length = p.length + 6 := by
  rw [instrFrame_eq, List.length_append, instrBody_length, List.length_cons, List.length_singleton]
  omega

/-- The payload stands behind the four header bytes. -/
theorem instrFrame_payload : ((instrFrame a c p k t).drop 4).take p.length = p := List.take_left

/-- The checksum byte stands behind the payload. -/
theorem instrFrame_getElem?_ck : (instrFrame a c p k t)[4 + p.length]? = some k := by
  rw [instrFrame_eq, ← instrBody_length a c p, List.getElem?_append_right le_rfl, Nat.sub_self]
  rfl

/-- The tail byte stands last. -/
theorem instrFrame_getElem?_tail : (instrFrame a c p k t)[4 + p.length + 1]? = some t := by
  rw [instrFrame_eq, ← instrBody_length a c p, List.getElem?_append_right (Nat.le_add_right _ 1), Nat.add_sub_cancel_left]
  rfl

/-- The sum that DEC.I takes over a frame is the checksum of R61. -/
theorem sum8_instrFrame (start : CkStart) :
    sum8 (instrFrame a c p k t) start.offset (4 + p.length - start.offset) = instrCk start a c p := by
  have hstart := CkStart.offset_le_two start
  rw [instrFrame_eq, ← instrBody_length a c p, sum8_append_from (by rw [instrBody_length]; omega), ckGen_instrBody]

end

/-- A sequence of at least two bytes, cut before its last two. -/
theorem exists_eq_append_pair {bs : List Byte} (h : 2 ≤ bs.length) : ∃ p k t, bs = p ++ [k, t] := by
  have hlen : (bs.drop (bs.length - 2)).length = 2 := by rw [List.length_drop]; omega
  obtain ⟨k, t, hkt⟩ := List.length_eq_two.1 hlen
  exact ⟨bs.take (bs.length - 2), k, t, by rw [← hkt, List.take_append_drop]⟩

/-- A sequence of at least six bytes, with its four header bytes, and its last two, written out. -/
theorem exists_eq_header_append_pair {f : List Byte} (h : 6 ≤ f.length) :
    ∃ b₀ b₁ b₂ b₃ p k t, f = [b₀, b₁, b₂, b₃] ++ p ++ [k, t] := by
  match f with
  | b₀ :: b₁ :: b₂ :: b₃ :: bs =>
    simp only [List.length_cons] at h
    obtain ⟨p, k, t, rfl⟩ := exists_eq_append_pair (bs := bs) (by omega)
    exact ⟨b₀, b₁, b₂, b₃, p, k, t, rfl⟩
  | [] | [_] | [_, _] | [_, _, _] => simp at h

section
variable {b₀ b₁ b₂ b₃ : Byte} {p : List Byte} {j : Nat} (hj : j < p.length) (k t : Byte)
include hj

/-- The bytes between header and checksum of a frame. -/
theorem frame_getElem?_middle : ([b₀, b₁, b₂, b₃] ++ p ++ [k, t])[4 + j]? = p[j]? := by
  rw [List.getElem?_append_left (by simp; omega), List.getElem?_append_right (by simp)]
  simp

/-- Changing one of them. -/
theorem frame_set_middle (x : Byte) :
    ([b₀, b₁, b₂, b₃] ++ p ++ [k, t]).set (4 + j) x = [b₀, b₁, b₂, b₃] ++ p.set j x ++ [k, t] := by
  rw [List.set_append_left _ _ (by simp; omega), List.set_append_right _ _ (by simp)]
  simp

end

/-- A byte whose value is a number is that number's byte. -/
theorem eq_ofNat_of_toNat {b : Byte} {n : Nat} (h : b.toNat = n) : b = .ofNat 8 n := by
  rw [← h, BitVec.ofNat_toNat, BitVec.setWidth_eq]

/-- What starts with the head and is as long as its length byte says is a frame of R60, but for its checksum and tail. -/
theorem exists_eq_instrFrame {f : List Byte} (hhead : f.head? = some 0x7B) (h6 : 6 ≤ f.length)
    (hlen : (f.getD 1 0).toNat = f.length) : ∃ a c p k t, p.length ≤ 249 ∧ f = instrFrame a c p k t := by
  obtain ⟨h, l, a, c, p, k, t, rfl⟩ := exists_eq_header_append_pair h6
  have hflen : ([h, l, a, c] ++ p ++ [k, t]).length = 6 + p.length := by simp; omega
  have hl : l.toNat = 6 + p.length := hlen.trans hflen
  have hlt := l.isLt
  obtain rfl : h = 0x7B := Option.some.inj hhead
  exact ⟨a, c, p, k, t, by omega, by rw [instrFrame, ← eq_ofNat_of_toNat hl]⟩

/-! ### The checks of DEC.I, in their order (R104, R165) -/

section
variable {cfg : Config} {pcc : Byte}

/-- A first byte that is not the head, or none at all, is FRAME_ERROR. -/
theorem decodeInstrFrame_of_head_ne {f : List Byte} (h : f.head? ≠ some 0x7B) :
    decodeInstrFrame cfg pcc f = .error (.status .frameError) := by
  have hhead : ¬f[0]? = some instrHead := List.head?_eq_getElem? ▸ h
  simp only [decodeInstrFrame, require_of_fails hhead]
  rfl

/-- A head with no length byte behind it is FRAME_ERROR. -/
theorem decodeInstrFrame_head : decodeInstrFrame cfg pcc [0x7B] = .error (.status .frameError) := rfl

/-- A length byte that is not the frame's length, or is below 6, is FRAME_ERROR. -/
theorem decodeInstrFrame_of_length_ne {l : Byte} {tl : List Byte} (h : l.toNat ≠ tl.length + 2 ∨ l.toNat < 6) :
    decodeInstrFrame cfg pcc (0x7B :: l :: tl) = .error (.status .frameError) := by
  change (require (l.toNat = tl.length + 2) .frameError >>= _) = _
  by_cases hl : l.toNat = tl.length + 2
  · have h6 : ¬fixedBytes ≤ l.toNat := (h.resolve_left (not_not.2 hl)).not_ge
    rw [require_of_holds hl]
    change (require (fixedBytes ≤ l.toNat) .frameError >>= _) = _
    rw [require_of_fails h6]
    rfl
  · rw [require_of_fails hl]
    rfl

variable {a c : Byte} {p : List Byte}

/-- A frame of R60's shape passes every check before the payload's shape; the layout, the checksum and the tail are what is left. -/
theorem decodeInstrFrame_instrFrame (hp : p.length ≤ 249) (k t : Byte) :
    decodeInstrFrame cfg pcc (instrFrame a c p k t) = (do
      require (∀ l ∈ cfg.layoutOf pcc, l.len = p.length) .frameError
      require (instrCk cfg.instrCkStart a c p = k) .checksumError
      require (t = instrTail) .frameError
      return .decoded a c p (interpI cfg pcc p)) := by
  have hbyte : (BitVec.ofNat 8 (6 + p.length)).toNat = 6 + p.length := by rw [BitVec.toNat_ofNat]; omega
  have hlen : 6 + p.length = (instrFrame a c p k t).length := by rw [instrFrame_length, Nat.add_comm]
  have hmin : fixedBytes ≤ 6 + p.length := Nat.le_add_right ..
  have hpayload : 6 + p.length - fixedBytes = p.length := Nat.add_sub_cancel_left ..
  have hfits : 4 + p.length ≤ (instrFrame a c p k t).length := by rw [instrFrame_length]; omega
  have hget0 : (instrFrame a c p k t)[0]? = some instrHead := rfl
  have hget1 : (instrFrame a c p k t)[1]? = some (.ofNat 8 (6 + p.length)) := rfl
  have hget2 : (instrFrame a c p k t)[2]? = some a := rfl
  have hget3 : (instrFrame a c p k t)[3]? = some c := rfl
  simp only [decodeInstrFrame, Cursor.newParse, codec_ok, ok_bind, require_of_holds hget0, Cursor.get_of_getElem? hget0,
    Cursor.get_of_getElem? hget1, hbyte, require_of_holds hlen, require_of_holds hmin, Cursor.get_of_getElem? hget2,
    Cursor.get_of_getElem? hget3, hpayload, Cursor.getN_of_le hfits, instrFrame_payload,
    Cursor.get_of_getElem? (instrFrame_getElem?_ck ..), sum8_instrFrame, Cursor.get_of_getElem? (instrFrame_getElem?_tail ..)]

/-- A payload of another length than its layout's is FRAME_ERROR in the model (R104); R105 leaves open which of two errors it is. -/
theorem decodeInstrFrame_of_layout_ne (hp : p.length ≤ 249) (hfit : ¬LayoutFits cfg pcc p.length) (k t : Byte) :
    decodeInstrFrame cfg pcc (instrFrame a c p k t) = .error (.status .frameError) := by
  rw [decodeInstrFrame_instrFrame hp, require_of_fails (show ¬∀ l ∈ cfg.layoutOf pcc, l.len = p.length from hfit)]
  rfl

variable (hp : p.length ≤ 249) (hfit : LayoutFits cfg pcc p.length)
include hp hfit

/-- With a payload that fits, a wrong checksum byte is CHECKSUM_ERROR, whatever the tail. -/
theorem decodeInstrFrame_of_ck_ne {k : Byte} (hk : k ≠ instrCk cfg.instrCkStart a c p) (t : Byte) :
    decodeInstrFrame cfg pcc (instrFrame a c p k t) = .error (.status .checksumError) := by
  rw [decodeInstrFrame_instrFrame hp, require_of_holds (show ∀ l ∈ cfg.layoutOf pcc, l.len = p.length from hfit),
    require_of_fails hk.symm]
  rfl

/-- With the right checksum a wrong tail is FRAME_ERROR. -/
theorem decodeInstrFrame_of_tail_ne {t : Byte} (ht : t ≠ 0x7D) :
    decodeInstrFrame cfg pcc (instrFrame a c p (instrCk cfg.instrCkStart a c p) t) = .error (.status .frameError) := by
  rw [decodeInstrFrame_instrFrame hp, require_of_holds (show ∀ l ∈ cfg.layoutOf pcc, l.len = p.length from hfit),
    require_of_holds rfl, require_of_fails (show ¬t = instrTail from ht)]
  rfl

/-- A frame with the right checksum and tail answers its fields and their interpretation. -/
theorem decodeInstrFrame_of_valid :
    decodeInstrFrame cfg pcc (instrFrame a c p (instrCk cfg.instrCkStart a c p) 0x7D) =
      .ok (.decoded a c p (interpI cfg pcc p)) := by
  rw [decodeInstrFrame_instrFrame hp, require_of_holds (show ∀ l ∈ cfg.layoutOf pcc, l.len = p.length from hfit),
    require_of_holds rfl, require_of_holds (show (0x7D : Byte) = instrTail from rfl)]
  rfl

end

/-- What is no frame of R60, but for its checksum and tail, is FRAME_ERROR. -/
theorem decodeInstrFrame_error_or_frame (cfg : Config) (pcc : Byte) (f : List Byte) :
    decodeInstrFrame cfg pcc f = .error (.status .frameError) ∨
      ∃ a c p k t, p.length ≤ 249 ∧ f = instrFrame a c p k t := by
  by_cases hhead : f.head? = some 0x7B
  · match f, hhead with
    | [_], rfl => exact .inl decodeInstrFrame_head
    | _ :: l :: tl, rfl =>
      by_cases hlen : l.toNat ≠ tl.length + 2 ∨ l.toNat < 6
      · exact .inl (decodeInstrFrame_of_length_ne hlen)
      · obtain ⟨hl, h6⟩ : l.toNat = tl.length + 2 ∧ 6 ≤ l.toNat := by omega
        exact .inr (exists_eq_instrFrame rfl (h6.trans hl.le) hl)
  · exact .inl (decodeInstrFrame_of_head_ne hhead)

/-! ### DEC.I (R104) -/

section
variable {pcc : Byte} {f : List Byte} {s : State}

theorem exec_decI_of_error {e : ErrorStatus} (h : decodeInstrFrame s.cfg pcc f = .error (.status e)) :
    exec (.decI pcc f) s = .next (s.answered [e.code]) := by
  rw [exec, execDecI, h]
  rfl

theorem exec_decI_of_ok {r : Result} (h : decodeInstrFrame s.cfg pcc f = .ok r) :
    exec (.decI pcc f) s = .next (s.answered (0x00 :: encodeResult r)) := by
  rw [exec, execDecI, h]
  rfl

end

/-- A field of the payload is written as its two bytes, then its divisor (R57). -/
theorem encodeNumericField_be16 (p : List Byte) (off : Nat) (div : U16) :
    encodeNumericField ⟨be16 p off, div⟩ = [p.getD off 0, p.getD (off + 1) 0] ++ bytesOfU16 div := by
  rw [encodeNumericField, be16, bytesOfU16_u16OfBytes]

/-- The model writes the VALUE of a payload as R57, R109 and R111 say. -/
theorem encodeValue_interpI (cfg : Config) (pcc : Byte) (p : List Byte) :
    encodeValue (interpI cfg pcc p) = instrValueBytes cfg pcc p := by
  cases hl : cfg.layoutOf pcc with
  | none => simp only [interpI, instrValueBytes, hl, encodeValue, bytesOfSeq_eq_seqBytes]
  | some l =>
    simp only [interpI, instrValueBytes, hl, encodeValue, List.length_map, List.flatMap_map, encodeNumericField_be16]
    refine congrArg (fun bs : List Byte => 0x01 :: .ofNat 8 l.fields.length :: bs) (List.flatMap_congr fun f _ => ?_)
    cases f.div <;> rfl

/-- DEC.I of a right frame whose payload fits answers the fields and the value. -/
theorem exec_decI_of_valid {pcc a c : Byte} {p : List Byte} {s : State} (hp : p.length ≤ 249)
    (hfit : LayoutFits s.cfg pcc p.length) :
    exec (.decI pcc (instrFrame a c p (instrCk s.cfg.instrCkStart a c p) 0x7D)) s =
      .next (s.answered ([0x00, a, c] ++ seqBytes p ++ instrValueBytes s.cfg pcc p)) := by
  rw [exec_decI_of_ok (decodeInstrFrame_of_valid hp hfit), encodeResult, bytesOfSeq_eq_seqBytes, encodeValue_interpI]
  rfl

/-- Settles O26: each clause is the first check that fails, in the order of R165, or the fields when none does. -/
theorem decIAnswersInTheOrderOfItsChecks : Obligations.DecIAnswersInTheOrderOfItsChecks := by
  unfold Obligations.DecIAnswersInTheOrderOfItsChecks
  refine ⟨portRule_byte .decI, fun pcc s => ⟨?head, ?noLength, ?length, ?layout, ?checksum, ?tail, ?valid⟩⟩
  case head => exact fun f h => exec_decI_of_error (decodeInstrFrame_of_head_ne h)
  case noLength => exact exec_decI_of_error decodeInstrFrame_head
  case length => exact fun l tl h => exec_decI_of_error (decodeInstrFrame_of_length_ne h)
  case layout => exact fun a c p k t hp hfit => .inl (exec_decI_of_error (decodeInstrFrame_of_layout_ne hp hfit k t))
  case checksum => exact fun a c p k t hp hfit hk => exec_decI_of_error (decodeInstrFrame_of_ck_ne hp hfit hk t)
  case tail => exact fun a c p t hp hfit ht => exec_decI_of_error (decodeInstrFrame_of_tail_ne hp hfit ht)
  case valid => exact fun a c p hp hfit => exec_decI_of_valid hp hfit

/-- A meaning that answered OK gave a result: the status of a raised one is not 0x00. -/
theorem exists_ok_of_finish {o : Except Raise Result} {s t : State} {body : List Byte} (h : s.finish o = .next t)
    (hr : t.responses = s.responses ++ [0x00 :: body]) : ∃ r, o = .ok r := by
  obtain ⟨r, ho, -⟩ | ⟨e, -, hexec⟩ | ⟨r, -, hexec⟩ := State.finish_cases s o
  · exact ⟨r, ho⟩
  · cases hexec.symm.trans h
    obtain ⟨hcode, -⟩ : e.code = 0x00 ∧ [] = body := by simpa [encodeResponse] using hr
    cases e <;> exact absurd hcode (by decide)
  · nomatch hexec.symm.trans h

/-- What a result of DEC.I tells about the frame. -/
theorem eq_instrFrame_of_decodeInstrFrame_ok {cfg : Config} {pcc : Byte} {f : List Byte} {r : Result}
    (h : decodeInstrFrame cfg pcc f = .ok r) : ∃ (a c : Byte) (p : List Byte), p.length ≤ 249 ∧ LayoutFits cfg pcc p.length ∧
      f = instrFrame a c p (instrCk cfg.instrCkStart a c p) 0x7D := by
  obtain herr | ⟨a, c, p, k, t, hp, rfl⟩ := decodeInstrFrame_error_or_frame cfg pcc f
  · nomatch herr.symm.trans h
  by_cases hfit : LayoutFits cfg pcc p.length
  · by_cases hk : k = instrCk cfg.instrCkStart a c p
    · subst hk
      by_cases ht : t = 0x7D
      · subst ht
        exact ⟨a, c, p, hp, hfit, rfl⟩
      · nomatch (decodeInstrFrame_of_tail_ne hp hfit ht).symm.trans h
    · nomatch (decodeInstrFrame_of_ck_ne hp hfit hk t).symm.trans h
  · nomatch (decodeInstrFrame_of_layout_ne hp hfit k t).symm.trans h

/-- Settles O27: what is no frame fails the first checks, and a frame passes the others only with a payload that fits, its checksum
and its tail. -/
theorem decIAcceptsOnlyFrames : Obligations.DecIAcceptsOnlyFrames := by
  unfold Obligations.DecIAcceptsOnlyFrames
  intro pcc f s t body hexec hresp
  obtain ⟨r, hr⟩ := exists_ok_of_finish hexec hresp
  exact eq_instrFrame_of_decodeInstrFrame_ok hr

/-! ### Round trip, truncation and sensitivity (R114) -/

/-- Settles O28: ENC.I's frame is the one that DEC.I accepts, with the same fields. -/
theorem instrumentRoundTrip : Obligations.InstrumentRoundTrip := by
  unfold Obligations.InstrumentRoundTrip
  intro a c pcc p s hp hfit
  exact ⟨_, _, exec_encI_of_le a c hp s, exec_decI_of_valid hp hfit⟩

/-- Without its last byte, a frame is shorter than its length byte says. -/
theorem decodeInstrFrame_dropLast {cfg : Config} {pcc a c : Byte} {p : List Byte} (hp : p.length ≤ 249) (k t : Byte) :
    decodeInstrFrame cfg pcc (instrFrame a c p k t).dropLast = .error (.status .frameError) := by
  have hdrop : (instrFrame a c p k t).dropLast = 0x7B :: .ofNat 8 (6 + p.length) :: a :: c :: (p ++ [k]) := by
    simp [instrFrame, List.dropLast_cons_of_ne_nil, List.dropLast_append_of_ne_nil]
  have hbyte : (BitVec.ofNat 8 (6 + p.length)).toNat = 6 + p.length := by rw [BitVec.toNat_ofNat]; omega
  rw [hdrop]
  refine decodeInstrFrame_of_length_ne (.inl ?_)
  rw [hbyte, List.length_cons, List.length_cons, List.length_append, List.length_singleton]
  omega

/-- The generator's sum changes when the first byte is dropped and the byte at the start offset is not zero: that byte leaves the
sum. -/
theorem ckGen_drop_one_ne {b : List Byte} {start : Nat} {x : Byte} (hx : b[start]? = some x) (h0 : x ≠ 0x00) :
    ckGen b start ≠ ckGen (b.drop 1) start := by
  obtain ⟨hlt, rfl⟩ := List.getElem?_eq_some_iff.1 hx
  have hpos : b[start].toNat ≠ 0 := fun h => h0 (BitVec.eq_of_toNat_eq h)
  have hbyte := b[start].isLt
  intro heq
  rw [ckGen_eq_ofNat_sum, ckGen_eq_ofNat_sum, List.drop_drop, Nat.add_comm 1, List.drop_eq_getElem_cons hlt, List.map_cons,
    List.sum_cons, eq_ofNat_byte_iff, BitVec.toNat_ofNat] at heq
  omega

/-- Where a frame without its first byte has a frame's shape again, its checksum is not the one it needs: the byte at the start
offset, a head or a length byte of the shorter frame, has left the sum. -/
theorem instrCk_ne_of_drop_one_eq {start : CkStart} {a c a' c' t k' t' : Byte} {p p' : List Byte} (hp' : p'.length ≤ 249)
    (h : (instrFrame a c p (instrCk start a c p) t).drop 1 = instrFrame a' c' p' k' t') : k' ≠ instrCk start a' c' p' := by
  have hsplit : (instrBody a c p).drop 1 ++ [instrCk start a c p, t] = instrBody a' c' p' ++ [k', t'] := h
  obtain ⟨hbody, hend⟩ := List.append_inj' hsplit rfl
  obtain ⟨rfl, -⟩ : instrCk start a c p = k' ∧ t = t' := by simpa using hend
  rw [← ckGen_instrBody, ← ckGen_instrBody, ← hbody]
  obtain ⟨hhead, ha, -⟩ : .ofNat 8 (6 + p.length) = (0x7B : Byte) ∧ a = .ofNat 8 (6 + p'.length) ∧ c :: p = a' :: c' :: p' := by
    simpa [instrBody] using hbody
  cases start with
  | one => exact ckGen_drop_one_ne (x := .ofNat 8 (6 + p.length)) rfl (hhead ▸ by decide)
  | two =>
    refine ckGen_drop_one_ne (x := a) rfl fun h0 => ?_
    have hzero : (6 + p'.length) % 256 = 0 := by simpa using congrArg BitVec.toNat (ha.symm.trans h0)
    omega

/-- Settles O29: without its last byte the frame is too short for its length byte; without its first it is no frame, or one with a
wrong checksum. -/
theorem instrumentTruncation : Obligations.InstrumentTruncation := by
  unfold Obligations.InstrumentTruncation
  intro a c pcc p s hp
  refine ⟨_, exec_encI_of_le a c hp s, exec_decI_of_error (decodeInstrFrame_dropLast hp _ _), ?first⟩
  case first =>
    obtain herr | ⟨a', c', p', k', t', hp', hf⟩ := decodeInstrFrame_error_or_frame s.cfg pcc
      ((instrFrame a c p (instrCk s.cfg.instrCkStart a c p) 0x7D).drop 1)
    · exact .inl (exec_decI_of_error herr)
    · have hk := instrCk_ne_of_drop_one_eq hp' hf
      rw [hf]
      by_cases hfit : LayoutFits s.cfg pcc p'.length
      · exact .inr (exec_decI_of_error (decodeInstrFrame_of_ck_ne hp' hfit hk t'))
      · exact .inl (exec_decI_of_error (decodeInstrFrame_of_layout_ne hp' hfit k' t'))

/-- Changing a byte of the payload inside a frame. -/
theorem instrFrame_set_payload {a c : Byte} {p : List Byte} {j : Nat} (hj : j < p.length) (k t x : Byte) :
    (instrFrame a c p k t).set (4 + j) x = instrFrame a c (p.set j x) k t := by
  rw [instrFrame, frame_set_middle hj, instrFrame, List.length_set]

/-- One changed byte of the payload changes the checksum. -/
theorem instrCk_set_ne {start : CkStart} {a c : Byte} {p : List Byte} {j : Nat} {x : Byte} (hj : j < p.length)
    (hx : p[j]? ≠ some x) : instrCk start a c p ≠ instrCk start a c (p.set j x) := by
  have hstart := CkStart.offset_le_two start
  have hbyte : (instrFrame a c p 0 0)[4 + j]? = p[j]? := frame_getElem?_middle hj 0 0
  have hne := sum8_set_ne (b := instrFrame a c p 0 0) (start := start.offset) (n := 4 + p.length - start.offset) (k := 4 + j) (x := x)
    (by rw [instrFrame_length]; omega) (by omega) (by omega) (hbyte ▸ hx)
  rw [instrFrame_set_payload hj, sum8_instrFrame] at hne
  have hset := sum8_instrFrame a c (p.set j x) 0 0 start
  rw [List.length_set] at hset
  exact fun heq => hne (hset.trans heq.symm)

/-- Settles O30: the changed payload still fits its layout, and asks for another checksum. -/
theorem instrumentSensitivity : Obligations.InstrumentSensitivity := by
  unfold Obligations.InstrumentSensitivity
  intro a c pcc p j x s hp hfit hj hx
  refine ⟨_, exec_encI_of_le a c hp s, ?_⟩
  rw [instrFrame_set_payload hj]
  have hlen : (p.set j x).length = p.length := List.length_set
  exact exec_decI_of_error (decodeInstrFrame_of_ck_ne (by rwa [hlen]) (by rwa [hlen]) (instrCk_set_ne hj hx) 0x7D)

/-! ### The two start offsets (90_conflicts.md C1) -/

/-- The two checksums of one frame differ by TOTAL_LENGTH, which is between 6 and 255. -/
theorem instrCk_ne_of_start_ne {start start' : CkStart} (h : start ≠ start') (a c : Byte) {p : List Byte} (hp : p.length ≤ 249) :
    instrCk start a c p ≠ instrCk start' a c p := by
  have hne : instrCk .one a c p ≠ instrCk .two a c p := by
    intro heq
    rw [instrCk, instrCk, eq_ofNat_byte_iff, BitVec.toNat_ofNat] at heq
    omega
  cases start <;> cases start'
  · exact absurd rfl h
  · exact hne
  · exact hne.symm
  · exact absurd rfl h

/-- Settles O31: TOTAL_LENGTH stands between the two checksums, so neither operation finds its own under the other start offset. -/
theorem checksumStartsNeverAgree : Obligations.ChecksumStartsNeverAgree := by
  unfold Obligations.ChecksumStartsNeverAgree
  intro a c pcc p s t hp hstart hfit
  have hInstr : variantOfByte 0x00 = some .instr := rfl
  have hk := instrCk_ne_of_start_ne hstart a c hp
  refine ⟨_, exec_encI_of_le a c hp s, ?verify, exec_decI_of_error (decodeInstrFrame_of_ck_ne hp hfit hk 0x7D)⟩
  case verify => rw [exec_ckVerify_of_variant hInstr, if_neg (mt (ckOk_instrFrame_iff ..).1 hk)]

end Sys2Proof.Machine
end

section
/-! PROOFS. The Plate codec (43_codec_plate.md section 5): what DEC.P accepts, its round trip, truncation and sensitivity. -/

namespace Sys2Proof.Machine

open Sys2Proof

/-! ### What DEC.P accepts (R124) -/

/-- What starts with the head and is as long as its PARAM_LENGTH byte says is a frame of R62 or R63, but for its checksum and tail. -/
theorem exists_eq_plateFrame {h : Byte} {f : List Byte} (hhead : f.head? = some h) (h6 : 6 ≤ f.length)
    (hlen : (f.getD 3 0).toNat + 6 = f.length) : ∃ a c p k t, p.length ≤ 255 ∧ f = plateFrame h a c p k t := by
  obtain ⟨h', a, c, n, p, k, t, rfl⟩ := exists_eq_header_append_pair h6
  have hflen : ([h', a, c, n] ++ p ++ [k, t]).length = p.length + 6 := by simp
  have hn : n.toNat = p.length := Nat.add_right_cancel (hlen.trans hflen)
  have hlt := n.isLt
  obtain rfl : h' = h := Option.some.inj hhead
  exact ⟨a, c, p, k, t, by omega, by rw [plateFrame, ← eq_ofNat_of_toNat hn]⟩

/-- What is no inbound frame with a socket address, but for its checksum and tail, is FRAME_ERROR. -/
theorem decodePlateFrame_error_or_frame (cfg : Config) (f : List Byte) :
    decodePlateFrame cfg f = .error (.status .frameError) ∨
      ∃ a c p k t, 0x80 ≤ a.toNat ∧ p.length ≤ 255 ∧ f = plateFrame 0x4F a c p k t := by
  by_cases hhead : f.head? = some 0x4F
  · match f, hhead with
    | [_], rfl => exact .inl decodePlateFrame_head
    | [_, a], rfl => exact .inl (decodePlateFrame_of_short a (by decide))
    | [_, a, _], rfl => exact .inl (decodePlateFrame_of_short a (by simp))
    | _ :: a :: c :: n :: tl, rfl =>
      by_cases hlen : n.toNat + 6 = tl.length + 4
      · by_cases ha : 0x80 ≤ a.toNat
        · have h6 : 6 ≤ (0x4F :: a :: c :: n :: tl).length := by simp only [List.length_cons]; omega
          obtain ⟨a', c', p, k, t, hp, hf⟩ := exists_eq_plateFrame (h := 0x4F) rfl h6 hlen
          obtain rfl : a = a' := (List.cons.inj (List.cons.inj hf).2).1
          exact .inr ⟨a, c', p, k, t, ha, hp, hf⟩
        · exact .inl (decodePlateFrame_of_address_lt (Nat.lt_of_not_le ha) _)
      · exact .inl (decodePlateFrame_of_length_ne a c hlen)
  · exact .inl (decodePlateFrame_of_head_ne hhead)

/-- A result of DEC.P tells that the frame is right, and that its parameters have the measurement shape where its code asks for it. -/
theorem eq_plateFrame_of_decodePlateFrame_ok {cfg : Config} {f : List Byte} {r : Result} (h : decodePlateFrame cfg f = .ok r) :
    ∃ (a c : Byte) (p : List Byte), 0x80 ≤ a.toNat ∧ p.length ≤ 255 ∧ (c ∈ cfg.plateMeasCodes → p.length = 2) ∧
      f = plateFrame 0x4F a c p (plateCk 0x4F a c p) cfg.plateRxTail := by
  obtain herr | ⟨a, c, p, k, t, ha, hp, rfl⟩ := decodePlateFrame_error_or_frame cfg f
  · nomatch herr.symm.trans h
  by_cases hk : k = plateCk 0x4F a c p
  · subst hk
    by_cases ht : t = cfg.plateRxTail
    · subst ht
      refine ⟨a, c, p, ha, hp, fun hc => ?_, rfl⟩
      by_contra hne
      rw [decodePlateFrame_of_valid ha hp, interpP_of_length_ne hc hne] at h
      nomatch h
    · nomatch (decodePlateFrame_of_tail_ne ha hp ht).symm.trans h
  · nomatch (decodePlateFrame_of_ck_ne ha hp hk t).symm.trans h

/-- Settles O35: what is no inbound frame fails the first checks, and a frame passes the others only with its checksum, its tail and
the measurement shape. -/
theorem decPAcceptsOnlyFrames : Obligations.DecPAcceptsOnlyFrames := by
  unfold Obligations.DecPAcceptsOnlyFrames
  intro f s t body hexec hresp
  obtain ⟨r, hr⟩ := exists_ok_of_finish hexec hresp
  exact eq_plateFrame_of_decodePlateFrame_ok hr

/-! ### The round trip (43_codec_plate.md section 5) -/

/-- The inbound twin of a frame: the head of R63, the checksum byte and the tail byte in the place of its own. -/
theorem plateFrame_twin (h a c : Byte) (p : List Byte) (k t h' k' t' : Byte) :
    (((plateFrame h a c p k t).set 0 h').set (4 + p.length) k').set (4 + p.length + 1) t' = plateFrame h' a c p k' t' := by
  have hhead : (plateFrame h a c p k t).set 0 h' = plateBody h' a c p ++ [k, t] := rfl
  have hlen := plateBody_length h' a c p
  rw [hhead, List.set_append_right _ _ (by omega), List.set_append_right _ _ (by omega), hlen, Nat.sub_self,
    Nat.add_sub_cancel_left, plateFrame_eq]
  rfl

/-- The inbound head is one above the outbound head, and so is the checksum. -/
theorem plateCk_inbound (a c : Byte) (p : List Byte) : plateCk 0x4F a c p = plateCk 0x4E a c p + 1 := by
  have hin : (0x4F : Byte).toNat = 0x4E + 1 := rfl
  have hout : (0x4E : Byte).toNat = 0x4E := rfl
  have hone : (1 : Byte).toNat = 1 := rfl
  apply BitVec.eq_of_toNat_eq
  simp only [plateCk, BitVec.toNat_add, BitVec.toNat_ofNat, hin, hout, hone]
  omega

/-- The interpretation of parameters whose shape is the one their code asks for. -/
theorem exists_interpP_eq_ok {cfg : Config} {a c : Byte} {p : List Byte} (h : c ∈ cfg.plateMeasCodes → p.length = 2) :
    ∃ val, interpP cfg a c p = .ok (.decoded a c p val) := by
  by_cases hc : c ∈ cfg.plateMeasCodes
  · exact ⟨_, interpP_of_measurement hc (h hc)⟩
  · exact ⟨_, interpP_of_not_measurement hc⟩

/-- DEC.P of a right frame whose parameters have the shape their code asks for answers its fields. -/
theorem exists_exec_decP_of_valid {a c : Byte} {p : List Byte} {s : State} (ha : 0x80 ≤ a.toNat) (hp : p.length ≤ 255)
    (hshape : c ∈ s.cfg.plateMeasCodes → p.length = 2) :
    ∃ val, exec (.decP (plateFrame 0x4F a c p (plateCk 0x4F a c p) s.cfg.plateRxTail)) s =
      .next (s.answered ([0x00, a, c] ++ seqBytes p ++ val)) := by
  obtain ⟨val, hval⟩ := exists_interpP_eq_ok (a := a) hshape
  refine ⟨encodeValue val, ?_⟩
  rw [exec_decP_of_ok ((decodePlateFrame_of_valid ha hp).trans hval), encodeResult, bytesOfSeq_eq_seqBytes]
  rfl

/-- Settles O36: the outbound head fails the first check, and the twin is the frame that DEC.P reads. -/
theorem plateRoundTrip : Obligations.PlateRoundTrip := by
  unfold Obligations.PlateRoundTrip
  intro a c p s hp
  have hne : (plateFrame 0x4E a c p (plateCk 0x4E a c p) 0x45).head? ≠ some 0x4F := by
    rw [plateFrame_eq]
    exact fun h => absurd (Option.some.inj h) (by decide)
  refine ⟨_, exec_encP_of_le a c hp s, exec_decP_of_error (decodePlateFrame_of_head_ne hne), fun ha k hk => ?twin⟩
  case twin =>
    have hck : (plateFrame 0x4E a c p (plateCk 0x4E a c p) 0x45).length - 2 = 4 + p.length := by
      rw [plateFrame_length]; omega
    have htail : (plateFrame 0x4E a c p (plateCk 0x4E a c p) 0x45).length - 1 = 4 + p.length + 1 := by
      rw [plateFrame_length]; omega
    rw [hck, plateFrame_getElem?_ck] at hk
    obtain rfl := Option.some.inj hk
    rw [hck, htail, plateFrame_twin, ← plateCk_inbound]
    refine ⟨fun hshape => exists_exec_decP_of_valid ha hp hshape, fun hc hlen => ?unknown⟩
    case unknown => exact exec_decP_of_error ((decodePlateFrame_of_valid ha hp).trans (interpP_of_length_ne hc hlen))

/-! ### Truncation and sensitivity (43_codec_plate.md section 5) -/

/-- Without its last byte, a frame is shorter than its PARAM_LENGTH byte says. -/
theorem decodePlateFrame_dropLast {cfg : Config} {a c : Byte} {p : List Byte} (hp : p.length ≤ 255) (k t : Byte) :
    decodePlateFrame cfg (plateFrame 0x4F a c p k t).dropLast = .error (.status .frameError) := by
  have hdrop : (plateFrame 0x4F a c p k t).dropLast = 0x4F :: a :: c :: .ofNat 8 p.length :: (p ++ [k]) := by
    simp [plateFrame, List.dropLast_cons_of_ne_nil, List.dropLast_append_of_ne_nil]
  have hbyte : (BitVec.ofNat 8 p.length).toNat = p.length := by rw [BitVec.toNat_ofNat]; omega
  rw [hdrop]
  refine decodePlateFrame_of_length_ne a c ?_
  rw [hbyte, List.length_append, List.length_singleton]
  omega

/-- Changing a byte of the parameters inside a frame. -/
theorem plateFrame_set_params {h a c : Byte} {p : List Byte} {j : Nat} (hj : j < p.length) (k t x : Byte) :
    (plateFrame h a c p k t).set (4 + j) x = plateFrame h a c (p.set j x) k t := by
  rw [plateFrame, frame_set_middle hj, plateFrame, List.length_set]

theorem plateFrame_getElem?_params {h a c : Byte} {p : List Byte} {j : Nat} (hj : j < p.length) (k t : Byte) :
    (plateFrame h a c p k t)[4 + j]? = p[j]? := frame_getElem?_middle hj k t

/-- One changed byte of the parameters changes the checksum. -/
theorem plateCk_set_ne {h a c : Byte} {p : List Byte} {j : Nat} {x : Byte} (hj : j < p.length) (hx : p[j]? ≠ some x) :
    plateCk h a c p ≠ plateCk h a c (p.set j x) := by
  have hne := sum8_set_ne (b := plateFrame h a c p 0 0) (start := 0) (n := 4 + p.length) (k := 4 + j) (x := x)
    (by rw [plateFrame_length]; omega) (Nat.zero_le _) (by omega) (plateFrame_getElem?_params hj 0 0 ▸ hx)
  rw [plateFrame_set_params hj, sum8_plateFrame] at hne
  have hset := sum8_plateFrame h a c (p.set j x) 0 0
  rw [List.length_set] at hset
  exact fun heq => hne (hset.trans heq.symm)

/-- Settles O37: an accepted frame is the one of R63; cut, it is too short for its PARAM_LENGTH byte, and changed parameters ask for
another checksum. -/
theorem plateTruncationAndSensitivity : Obligations.PlateTruncationAndSensitivity := by
  unfold Obligations.PlateTruncationAndSensitivity
  intro f s body hexec
  obtain ⟨r, hr⟩ := exists_ok_of_finish hexec rfl
  obtain ⟨a, c, p, ha, hp, -, rfl⟩ := eq_plateFrame_of_decodePlateFrame_ok hr
  refine ⟨exec_decP_of_error (decodePlateFrame_dropLast hp _ _), fun j x h4 hj hx => ?changed⟩
  case changed =>
    obtain ⟨i, rfl⟩ := Nat.exists_eq_add_of_le h4
    rw [plateFrame_length] at hj
    have hi : i < p.length := by omega
    have hlen : (p.set i x).length = p.length := List.length_set
    rw [plateFrame_getElem?_params hi] at hx
    rw [plateFrame_set_params hi]
    exact exec_decP_of_error (decodePlateFrame_of_ck_ne ha (by rwa [hlen]) (plateCk_set_ne hi hx) _)

end Sys2Proof.Machine
end

section
/-! PROOFS. Feeding the framer (44_framer.md sections 3 and 4): chunks, noise, frames, and the candidates that are rejected or held. -/

namespace Sys2Proof.Machine

open Sys2Proof

/-! ### Feeding a chunk and draining it whole -/

section
variable {cfg : Config} {v : Variant}

@[simp] theorem drain_nil (cfg : Config) (v : Variant) : drain cfg v [] = ([], []) := by
  exact AtHead.drain_of_wait (.inl rfl) (judge_of_short (hdrLen_pos v))

/-- Two chunks one after the other are the chunk of both (R139). -/
theorem feedBytes_append (c d buf : List Byte) :
    feedBytes cfg v (c ++ d) buf =
      ((feedBytes cfg v c buf).1 ++ (feedBytes cfg v d (feedBytes cfg v c buf).2).1,
        (feedBytes cfg v d (feedBytes cfg v c buf).2).2) := by
  induction c generalizing buf with
  | nil => rfl
  | cons b c ih => simp only [List.cons_append, feedBytes_cons, ih, List.append_assoc]

/-- Draining bytes all at once is draining the first of them and feeding the others one by one, with EARLY_REJECT or as long as no
byte but the last is past MAX_FRAME. -/
theorem drain_append (chunk buf : List Byte) (h : cfg.earlyReject = true ∨ buf.length + chunk.length ≤ cfg.maxFrame + 1) :
    drain cfg v (buf ++ chunk) =
      ((drain cfg v buf).1 ++ (feedBytes cfg v chunk (drain cfg v buf).2).1, (feedBytes cfg v chunk (drain cfg v buf).2).2) := by
  induction chunk generalizing buf with
  | nil => simp
  | cons b chunk ih =>
    rw [List.length_cons] at h
    have hrest : cfg.earlyReject = true ∨ (buf ++ [b]).length + chunk.length ≤ cfg.maxFrame + 1 :=
      h.imp_right fun hl => by rw [List.length_append, List.length_singleton]; omega
    rw [List.append_cons, ih _ hrest, drain_append_byte cfg v b buf (h.imp_right fun hl => by omega), feedBytes_cons]
    simp only [List.append_assoc]

/-- Feeding an empty framer is draining the chunk. -/
theorem feedBytes_nil_eq_drain {chunk : List Byte} (h : cfg.earlyReject = true ∨ chunk.length ≤ cfg.maxFrame + 1) :
    feedBytes cfg v chunk [] = drain cfg v chunk := by
  have happend := drain_append (cfg := cfg) (v := v) chunk [] (h.imp_right fun hl => by simpa using hl)
  simpa using happend.symm

/-! ### Noise (R142) -/

/-- Bytes without the head, in front of a buffer, are hunted away. -/
theorem hunt_noise_append {noise : List Byte} (h : headOf v ∉ noise) (buf : List Byte) : hunt v (noise ++ buf) = hunt v buf := by
  rw [headOf_eq_rxHead] at h
  rw [← hunt_append, hunt_of_noise h, List.nil_append]

theorem drain_noise_append {noise : List Byte} (h : headOf v ∉ noise) (buf : List Byte) :
    drain cfg v (noise ++ buf) = drain cfg v buf := by
  rw [drain_eq, hunt_noise_append h, ← drain_eq]

theorem drain_noise {noise : List Byte} (h : headOf v ∉ noise) : drain cfg v noise = ([], []) := by
  simpa using drain_noise_append (cfg := cfg) h []

theorem feedBytes_noise {noise : List Byte} (h : headOf v ∉ noise) : feedBytes cfg v noise [] = ([], []) := by
  induction noise with
  | nil => rfl
  | cons b noise ih =>
    obtain ⟨hb, hnoise⟩ := not_or.1 (mt List.mem_cons.2 h)
    have hdrain : drain cfg v [b] = ([], []) := drain_noise (mt List.mem_singleton.1 hb)
    rw [feedBytes_cons, List.nil_append, hdrain, ih hnoise]
    rfl

end

/-! ### Frames (R60, R63) as the framer meets them -/

section
variable {v : Variant} {a c : Byte} {p : List Byte} {k t : Byte}

theorem rxFrame_length : (rxFrame v a c p k t).length = p.length + 6 := by
  cases v with
  | instr => exact instrFrame_length a c p k t
  | plate => exact plateFrame_length 0x4F a c p k t

theorem rxFrame_head? : (rxFrame v a c p k t).head? = some (headOf v) := by
  cases v <;> rfl

theorem rxFrame_getElem?_tail : (rxFrame v a c p k t)[p.length + 5]? = some t := by
  have hidx : p.length + 5 = 4 + p.length + 1 := by omega
  rw [hidx]
  cases v with
  | instr => exact instrFrame_getElem?_tail a c p k t
  | plate => exact plateFrame_getElem?_tail 0x4F a c p k t

/-- A frame declares its own length. -/
theorem declLen_rxFrame (hp : p.length ≤ maxField v) : declLen v (rxFrame v a c p k t) = p.length + 6 := by
  cases v with
  | instr =>
    have hlen : p.length ≤ 249 := hp
    have hbyte : (BitVec.ofNat 8 (6 + p.length)).toNat = p.length + 6 := by rw [BitVec.toNat_ofNat]; omega
    exact hbyte
  | plate =>
    have hlen : p.length ≤ 255 := hp
    have hbyte : (BitVec.ofNat 8 p.length).toNat = p.length := by rw [BitVec.toNat_ofNat]; omega
    exact congrArg (· + 6) hbyte

/-- What starts with the receive head and is as long as it declares is a frame, but for its checksum and tail. -/
theorem exists_eq_rxFrame {f : List Byte} (hhead : f.head? = some (headOf v)) (h6 : 6 ≤ f.length)
    (hlen : declLen v f = f.length) : ∃ a c p k t, p.length ≤ maxField v ∧ f = rxFrame v a c p k t := by
  cases v with
  | instr => exact exists_eq_instrFrame hhead h6 hlen
  | plate => exact exists_eq_plateFrame hhead h6 hlen

variable {cfg : Config}

theorem ckOk_rxFrame_iff : ckOk cfg v (rxFrame v a c p k t) = true ↔ k = rxCk cfg v a c p := by
  cases v with
  | instr => exact ckOk_instrFrame_iff cfg a c p k t
  | plate => exact ckOk_plateFrame_iff cfg 0x4F a c p k t

theorem classify_rxFrame_of_eq (t : Byte) :
    classify cfg v (rxFrame v a c p (rxCk cfg v a c p) t) = .frame (rxFrame v a c p (rxCk cfg v a c p) t) :=
  if_pos (ckOk_rxFrame_iff.2 rfl)

theorem classify_rxFrame_of_ne (hk : k ≠ rxCk cfg v a c p) :
    classify cfg v (rxFrame v a c p k t) = .ckErr (rxFrame v a c p k t) :=
  if_neg (mt ckOk_rxFrame_iff.1 hk)

section
variable (hp : p.length ≤ maxField v) (hm : 6 + p.length ≤ cfg.maxFrame)
include hp hm

/-- A frame of at most MAX_FRAME bytes with the right tail is a complete candidate. -/
theorem judge_rxFrame : judge cfg v (rxFrame v a c p k (tailOf cfg v)) = .complete (p.length + 6) := by
  have hh := hdrLen_le_four v
  have hdecl := declLen_rxFrame (k := k) (t := tailOf cfg v) (a := a) (c := c) hp
  have hc : CompleteCandidate cfg v (rxFrame v a c p k (tailOf cfg v)) := by
    rw [CompleteCandidate, hdecl, rxFrame_length]
    exact ⟨by omega, by omega, le_rfl, rxFrame_getElem?_tail⟩
  rw [← hdecl]
  exact judge_of_completeCandidate (by rw [rxFrame_length]; omega) hc

/-- A frame is consumed whole, whatever stands behind it (R143, R146). -/
theorem drain_rxFrame_append (more : List Byte) :
    drain cfg v (rxFrame v a c p k (tailOf cfg v) ++ more) =
      (classify cfg v (rxFrame v a c p k (tailOf cfg v)) :: (drain cfg v more).1, (drain cfg v more).2) := by
  have hhead : AtHead v (rxFrame v a c p k (tailOf cfg v) ++ more) := by
    refine .inr ?_
    rw [List.head?_append, rxFrame_head?]
    rfl
  have hlen : (rxFrame v a c p k (tailOf cfg v)).length = p.length + 6 := rxFrame_length
  have hrest : drain cfg v ((rxFrame v a c p k (tailOf cfg v) ++ more).drop (p.length + 6)) =
      ((drain cfg v more).1, (drain cfg v more).2) := by
    rw [← hlen, List.drop_left]
  rw [hhead.drain_of_complete (judge_append_complete (judge_rxFrame hp hm) more) hrest, ← hlen, List.take_left]

/-- With EARLY_REJECT a frame with a wrong tail is rejected (R141). -/
theorem judge_rxFrame_of_tail_ne (he : cfg.earlyReject = true) (ht : t ≠ tailOf cfg v) :
    judge cfg v (rxFrame v a c p k t) = .reject .badTail := by
  have hh := hdrLen_le_four v
  have hdecl := declLen_rxFrame (k := k) (t := t) (a := a) (c := c) hp
  refine judge_of_badTail (by rw [rxFrame_length]; omega) he (by omega) (by omega) (by rw [rxFrame_length, hdecl]) ?_
  rw [hdecl, show p.length + 6 - 1 = p.length + 5 from rfl, rxFrame_getElem?_tail]
  exact fun h => ht (Option.some.inj h)

end

end

/-! ### What FRM.FEED answers -/

section
variable {s : State} {chunk : List Byte} {ev : List Event} {out : List Byte}

theorem feedAnswers_of_feedBytes (h : feedBytes s.cfg s.frmVariant chunk s.frmBuf = (ev, out)) : FeedAnswers s chunk ev out := by
  rw [FeedAnswers, exec_frmFeed, h]

/-- An empty framer answers what draining the chunk finds. -/
theorem feedAnswers_of_drain (hbuf : s.frmBuf = []) (hc : s.cfg.earlyReject = true ∨ chunk.length ≤ s.cfg.maxFrame + 1)
    (h : drain s.cfg s.frmVariant chunk = (ev, out)) : FeedAnswers s chunk ev out :=
  feedAnswers_of_feedBytes (by rw [hbuf, feedBytes_nil_eq_drain hc, h])

/-- A framer that is left as empty as it was has only answered. -/
theorem FeedAnswers.exec_eq_answered (h : FeedAnswers s chunk ev []) (hbuf : s.frmBuf = []) :
    exec (.frmFeed chunk) s = .next (s.answered (feedResponse ev)) := by
  rw [FeedAnswers] at h
  rw [h, State.answered, ← hbuf]

end

/-- Settles O41: the per-byte step goes through both chunks alike, and a response touches neither buffer nor variant. -/
theorem chunkingDoesNotMatter : Obligations.ChunkingDoesNotMatter := by
  unfold Obligations.ChunkingDoesNotMatter
  intro c d s
  obtain ⟨ev, mid, hc⟩ : ∃ ev mid, feedBytes s.cfg s.frmVariant c s.frmBuf = (ev, mid) := ⟨_, _, rfl⟩
  obtain ⟨ev', out, hd⟩ : ∃ ev' out, feedBytes s.cfg s.frmVariant d mid = (ev', out) := ⟨_, _, rfl⟩
  have hboth : feedBytes s.cfg s.frmVariant (c ++ d) s.frmBuf = (ev ++ ev', out) := by rw [feedBytes_append, hc, hd]
  refine ⟨ev, ev', mid, out, feedAnswers_of_feedBytes hc, ?second, feedAnswers_of_feedBytes hboth⟩
  case second => simp only [exec_frmFeed, hd, List.append_assoc, List.singleton_append]

/-- Settles O45: noise is hunted away byte by byte. -/
theorem noiseMakesNoEvent : Obligations.NoiseMakesNoEvent := by
  unfold Obligations.NoiseMakesNoEvent
  intro s noise hbuf hnoise
  have hresp : feedResponse [] = [0x00, 0x00, 0x00, 0x00, 0x00] := by decide
  rw [← hresp]
  exact (feedAnswers_of_feedBytes (by rw [hbuf, feedBytes_noise hnoise])).exec_eq_answered hbuf

/-! ### Delivery (R143, R146) -/

/-- Noise and then a candidate of at most MAX_FRAME bytes, fed to an empty framer, make the candidate's event and leave nothing. -/
theorem feedBytes_noise_rxFrame {cfg : Config} {v : Variant} {noise : List Byte} {a c k : Byte} {p : List Byte}
    (hnoise : headOf v ∉ noise) (hp : p.length ≤ maxField v) (hm : 6 + p.length ≤ cfg.maxFrame) :
    feedBytes cfg v (noise ++ rxFrame v a c p k (tailOf cfg v)) [] =
      ([classify cfg v (rxFrame v a c p k (tailOf cfg v))], []) := by
  have hfits : (rxFrame v a c p k (tailOf cfg v)).length ≤ cfg.maxFrame + 1 := by rw [rxFrame_length]; omega
  have hdrain := drain_rxFrame_append (a := a) (c := c) (k := k) hp hm []
  rw [List.append_nil, drain_nil] at hdrain
  rw [feedBytes_append, feedBytes_noise hnoise, feedBytes_nil_eq_drain (.inr hfits), hdrain]
  rfl

/-- Settles O42: the noise is gone when the frame comes, and the frame is complete with its last byte. -/
theorem validFrameIsDelivered : Obligations.ValidFrameIsDelivered := by
  unfold Obligations.ValidFrameIsDelivered
  intro s noise a c p hbuf hnoise hp hm
  refine (feedAnswers_of_feedBytes ?_).exec_eq_answered hbuf
  rw [hbuf, feedBytes_noise_rxFrame hnoise hp hm, classify_rxFrame_of_eq]

/-- Settles O43: the checksum decides only which event a complete candidate makes. -/
theorem badChecksumFrameIsConsumedWhole : Obligations.BadChecksumFrameIsConsumedWhole := by
  unfold Obligations.BadChecksumFrameIsConsumedWhole
  intro s a c p k hbuf hp hm hk
  refine (feedAnswers_of_feedBytes ?_).exec_eq_answered hbuf
  have hfeed := feedBytes_noise_rxFrame (noise := []) (a := a) (c := c) (k := k) (List.not_mem_nil) hp hm
  rw [List.nil_append] at hfeed
  rw [hbuf, hfeed, classify_rxFrame_of_ne hk]

/-- One step of a run that goes on. -/
theorem run_succ_of_step {M : Host.Core} {s t : M.State} (h : M.step s = .next t) (k : Nat) : M.run (k + 1) s = M.run k t := by
  rw [Host.Core.run, h]

/-- Reset asserted, released, and a chunk fed: the chunk meets an empty framer of LINK_VARIANT. -/
theorem run_reset_feed {s : State} {chunk : List Byte} {rest : List PortInput} (hlen : chunk.length ≤ 65535)
    (hp : s.pending = .resetAssert :: .resetRelease :: .packet (encode (.frmFeed chunk)) :: rest) :
    core.run 3 s = .next
      { s with
        frmVariant := s.cfg.linkVariant
        frmBuf := (feedBytes s.cfg s.cfg.linkVariant chunk []).2
        inReset := false
        pending := rest
        responses := s.responses ++ [feedResponse (feedBytes s.cfg s.cfg.linkVariant chunk []).1] } := by
  have hdecode : decode (encode (.frmFeed chunk)) = .ok (.frmFeed chunk) := decodeInvertsEncode _ (seqFits_iff.2 hlen)
  calc core.run 3 s
      = core.run 2 (State.assertReset { s with pending := _ }) := run_succ_of_step (M := core) (step_of_resetAssert hp) 2
    _ = core.run 1 _ := run_succ_of_step (M := core) (step_of_resetRelease rfl) 1
    _ = core.run 0 _ := run_succ_of_step (M := core) ((step_of_decode_ok rfl rfl hdecode).trans (exec_frmFeed chunk _)) 0

/-- Settles O14: the reset action leaves an empty framer of LINK_VARIANT, to which the delivery of a valid frame applies. -/
theorem afterResetTheFramerHunts : Obligations.AfterResetTheFramerHunts := by
  unfold Obligations.AfterResetTheFramerHunts
  intro s rest noise a c p hnoise hp hm hlen hpending
  rw [run_reset_feed (by rw [List.length_append, rxFrame_length]; omega) hpending, feedBytes_noise_rxFrame hnoise hp hm,
    classify_rxFrame_of_eq]

/-! ### Rejected candidates (R143, R144) -/

section
variable {s : State} {buf : List Byte} {r : FrameErrReason}

/-- With EARLY_REJECT a rejected candidate fed to an empty framer loses its head byte, and the bytes behind it count as fed alone. -/
theorem feedAnswers_of_reject (hbuf : s.frmBuf = []) (he : s.cfg.earlyReject = true)
    (hhead : buf.head? = some (headOf s.frmVariant)) (hj : judge s.cfg s.frmVariant buf = .reject r) (rest : List Byte) :
    FeedAnswers s (buf ++ rest) (.frameErr r :: (drain s.cfg s.frmVariant (buf.drop 1 ++ rest)).1)
      (drain s.cfg s.frmVariant (buf.drop 1 ++ rest)).2 := by
  have hpos := judge_reject_length hj
  have hat : AtHead s.frmVariant (buf ++ rest) := by
    refine .inr ?_
    rw [List.head?_append, hhead]
    rfl
  refine feedAnswers_of_drain hbuf (.inl he) (hat.drain_of_reject (judge_append_reject he hj rest) ?_)
  rw [List.drop_append_of_le_length hpos]

theorem exists_feedAnswers_of_reject (hbuf : s.frmBuf = []) (he : s.cfg.earlyReject = true)
    (hhead : buf.head? = some (headOf s.frmVariant)) (hj : judge s.cfg s.frmVariant buf = .reject r) (rest : List Byte) :
    ∃ ev out, FeedAnswers s (buf.drop 1 ++ rest) ev out ∧ FeedAnswers s (buf ++ rest) (.frameErr r :: ev) out :=
  ⟨_, _, feedAnswers_of_drain hbuf (.inl he) rfl, feedAnswers_of_reject hbuf he hhead hj rest⟩

/-- A rejected candidate with nothing behind it makes its event, and what its other bytes make. -/
theorem feedAnswers_of_reject_of_drain {ev : List Event} {out : List Byte} (hbuf : s.frmBuf = [])
    (he : s.cfg.earlyReject = true) (hhead : buf.head? = some (headOf s.frmVariant))
    (hj : judge s.cfg s.frmVariant buf = .reject r) (hd : drain s.cfg s.frmVariant (buf.drop 1) = (ev, out)) :
    FeedAnswers s buf (.frameErr r :: ev) out := by
  have h := feedAnswers_of_reject hbuf he hhead hj []
  rwa [List.append_nil, List.append_nil, hd] at h

end

/-- A buffer with less than a header waits at its head. -/
theorem drain_of_short {cfg : Config} {v : Variant} {buf : List Byte} (hhead : buf.head? = some (headOf v))
    (h : buf.length < hdrLen v) : drain cfg v buf = ([], buf) :=
  AtHead.drain_of_wait (.inr hhead) (judge_of_short h)

/-- Settles O46: the header alone decides, so the candidate is rejected with its last byte, and what stands behind the head is
drained as it is. -/
theorem illegalLengthIsRejectedAtOnce : Obligations.IllegalLengthIsRejectedAtOnce := by
  unfold Obligations.IllegalLengthIsRejectedAtOnce
  intro s rest hbuf he
  refine ⟨fun hv l hl => ?badLength, fun hv l h6 hl => ?oversize, fun hv a c n hn => ?plate⟩
  case badLength =>
    have hhead : [0x7B, l].head? = some (headOf s.frmVariant) := hv ▸ rfl
    have hj : judge s.cfg s.frmVariant [0x7B, l] = .reject .badLength := by
      rw [hv]
      exact judge_of_badLength le_rfl he hl
    have hnoise : headOf s.frmVariant ∉ [l] := by
      rw [hv, List.mem_singleton]
      rintro rfl
      exact absurd hl (by decide)
    exact ⟨feedAnswers_of_reject_of_drain hbuf he hhead hj (drain_noise hnoise),
      exists_feedAnswers_of_reject hbuf he hhead hj rest⟩
  case oversize =>
    have hhead : [0x7B, l].head? = some (headOf s.frmVariant) := hv ▸ rfl
    have hj : judge s.cfg s.frmVariant [0x7B, l] = .reject .oversize := by
      rw [hv]
      exact judge_of_oversize le_rfl he h6 hl
    refine ⟨fun hne => ?noHead, fun heq => ?head, exists_feedAnswers_of_reject hbuf he hhead hj rest⟩
    case noHead =>
      have hnoise : headOf s.frmVariant ∉ [l] := by
        rw [hv, List.mem_singleton]
        exact Ne.symm hne
      exact feedAnswers_of_reject_of_drain hbuf he hhead hj (drain_noise hnoise)
    case head =>
      subst heq
      refine feedAnswers_of_reject_of_drain hbuf he hhead hj (drain_of_short (hv ▸ rfl) ?_)
      rw [hv]
      decide
  case plate =>
    have hhead : [0x4F, a, c, n].head? = some (headOf s.frmVariant) := hv ▸ rfl
    have hj : judge s.cfg s.frmVariant [0x4F, a, c, n] = .reject .oversize := by
      rw [hv]
      exact judge_of_oversize le_rfl he (Nat.le_add_left ..) hn
    refine ⟨fun hnoise => ?noHead, fun heq => ?head, exists_feedAnswers_of_reject hbuf he hhead hj rest⟩
    case noHead => exact feedAnswers_of_reject_of_drain hbuf he hhead hj (drain_noise (hv ▸ hnoise))
    case head =>
      subst heq
      refine feedAnswers_of_reject_of_drain hbuf he hhead hj (drain_of_short (hv ▸ rfl) ?_)
      rw [hv]
      exact Nat.lt_succ_self 3

/-- Settles O47: the wrong tail rejects the candidate whatever follows it; behind its head, noise is hunted away and a frame is
consumed whole. -/
theorem wrongTailIsRejectedAndRescanned : Obligations.WrongTailIsRejectedAndRescanned := by
  unfold Obligations.WrongTailIsRejectedAndRescanned
  intro s a c p k t hbuf he hp hm ht
  have hj := judge_rxFrame_of_tail_ne (a := a) (c := c) (k := k) hp hm he ht
  refine ⟨fun rest => exists_feedAnswers_of_reject hbuf he rxFrame_head? hj rest, ?rescanned⟩
  case rescanned =>
    intro pre a' c' p' rest' hpre hp' hm' rest hsplit
    refine ⟨_, _, feedAnswers_of_drain hbuf (.inl he) rfl, ?_⟩
    have h := feedAnswers_of_reject hbuf he rxFrame_head? hj rest
    rwa [hsplit, List.append_assoc, drain_noise_append hpre, drain_rxFrame_append hp' hm', classify_rxFrame_of_eq] at h

/-! ### Held candidates (R145, R150) -/

/-- A candidate that can never become a frame is not complete. -/
theorem ImpossibleCandidate.not_complete {cfg : Config} {v : Variant} {buf : List Byte} (h : ImpossibleCandidate cfg v buf) :
    ¬CompleteCandidate cfg v buf := by
  rintro ⟨h6, hm, hl, ht⟩
  obtain ⟨-, hshort | hlong | ⟨-, htail⟩⟩ := h
  · omega
  · omega
  · exact htail ht

/-- Settles O48: without EARLY_REJECT a candidate that is not complete waits up to MAX_FRAME bytes, and is rejected by the next. -/
theorem literalModeHoldsTheCandidate : Obligations.LiteralModeHoldsTheCandidate := by
  unfold Obligations.LiteralModeHoldsTheCandidate
  intro s buf hbuf he hhead himp
  have hat : AtHead s.frmVariant buf := .inr hhead
  have hnc := himp.not_complete
  obtain ⟨hh, -⟩ := himp
  refine ⟨fun hle => ?held, fun hlen => ?rejected⟩
  case held =>
    exact feedAnswers_of_drain hbuf (.inr (by omega)) (hat.drain_of_wait (judge_of_literalWait hh he hnc hle))
  case rejected =>
    have hj := judge_of_literalOversize hh he hnc (by omega)
    have hfits : buf.length ≤ s.cfg.maxFrame + 1 := hlen.le
    have hdrop : (buf.drop 1).length ≤ s.cfg.maxFrame + 1 := by rw [List.length_drop]; omega
    refine ⟨fun hnoise => ?_, _, _, feedAnswers_of_drain hbuf (.inr hdrop) rfl, ?_⟩
    · exact feedAnswers_of_drain hbuf (.inr hfits) (hat.drain_of_reject hj (drain_noise hnoise))
    · exact feedAnswers_of_drain hbuf (.inr hfits) (hat.drain_of_reject hj rfl)

/-- A candidate that has not reached its declared length waits in either mode. -/
theorem judge_of_length_lt {cfg : Config} {v : Variant} {buf : List Byte} (hh : hdrLen v ≤ buf.length) (h6 : 6 ≤ declLen v buf)
    (hm : declLen v buf ≤ cfg.maxFrame) (hl : buf.length < declLen v buf) : judge cfg v buf = .wait := by
  cases he : cfg.earlyReject with
  | true => exact judge_of_body hh he h6 hm hl
  | false => exact judge_of_literalWait hh he (fun hc => hl.not_ge hc.2.2.1) (by omega)

/-- Settles O49: behind the false head, the frame's own head is read as a length of 123. -/
theorem falseHeadHoldsTheFrame : Obligations.FalseHeadHoldsTheFrame := by
  unfold Obligations.FalseHeadHoldsTheFrame
  intro s a c p hbuf hv hm hp
  have hdecl : declLen .instr (0x7B :: instrFrame a c p (instrCk s.cfg.instrCkStart a c p) 0x7D) = 123 := rfl
  have hlen : (0x7B :: instrFrame a c p (instrCk s.cfg.instrCkStart a c p) 0x7D).length = p.length + 7 := by
    rw [List.length_cons, instrFrame_length]
  have hh : hdrLen .instr ≤ p.length + 7 := Nat.le_trans (by decide) (Nat.le_add_left 7 _)
  refine feedAnswers_of_drain hbuf (.inr (by omega)) ?_
  rw [hv]
  refine AtHead.drain_of_wait (.inr rfl) (judge_of_length_lt ?_ ?_ ?_ ?_)
  · rw [hlen]; exact hh
  · rw [hdecl]; omega
  · rw [hdecl]; exact hm
  · rw [hdecl, hlen]; omega

/-! ### What the events tell (R58, R140) -/

/-- What an event promises of the bytes it was found in (R58, R146): a frame's bytes, its checksum right or wrong, or a candidate that
was rejected for the reason. -/
def EventSound (cfg : Config) (v : Variant) (bytes : List Byte) : Event → Prop
  | .frame f => f <:+: bytes ∧ ∃ (a c : Byte) (p : List Byte), p.length ≤ maxField v ∧ f.length ≤ cfg.maxFrame ∧
      f = rxFrame v a c p (rxCk cfg v a c p) (tailOf cfg v)
  | .ckErr f => f <:+: bytes ∧ ∃ (a c : Byte) (p : List Byte) (k : Byte), p.length ≤ maxField v ∧ f.length ≤ cfg.maxFrame ∧
      k ≠ rxCk cfg v a c p ∧ f = rxFrame v a c p k (tailOf cfg v)
  | .frameErr r => (∃ cand, cand <:+: bytes ∧ RejectedFor cfg v cand r) ∧ (v = .plate → r ≠ .badLength)

section
variable {cfg : Config} {v : Variant}

/-- An event is about a run of the bytes, so it holds of every longer run. -/
theorem EventSound.mono {bytes more : List Byte} {e : Event} (h : EventSound cfg v bytes e) (hsub : bytes <:+: more) :
    EventSound cfg v more e := by
  match e, h with
  | .frame f, ⟨hf, hshape⟩ => exact ⟨hf.trans hsub, hshape⟩
  | .ckErr f, ⟨hf, hshape⟩ => exact ⟨hf.trans hsub, hshape⟩
  | .frameErr r, ⟨⟨cand, hcand, hrej⟩, hplate⟩ => exact ⟨⟨cand, hcand.trans hsub, hrej⟩, hplate⟩

variable {buf : List Byte}

/-- A complete candidate is a frame, but for its checksum. -/
theorem exists_take_eq_rxFrame {len : Nat} (hhead : buf.head? = some (headOf v)) (hj : judge cfg v buf = .complete len) :
    ∃ a c p k, p.length ≤ maxField v ∧ buf.take len = rxFrame v a c p k (tailOf cfg v) := by
  obtain ⟨hdecl, -, h6, -, hle, htail⟩ := judge_complete hj
  have hh := hdrLen_le_four v
  have hlen : (buf.take len).length = len := List.length_take_of_le hle
  have hdecl' : declLen v (buf.take len) = (buf.take len).length := by
    have happend := declLen_append (v := v) (buf := buf.take len) (by omega) (buf.drop len)
    rw [List.take_append_drop] at happend
    rw [← happend, hlen, hdecl]
  have hhead' : (buf.take len).head? = some (headOf v) := by
    rw [List.head?_take, if_neg (by omega), hhead]
  obtain ⟨a, c, p, k, t, hp, hf⟩ := exists_eq_rxFrame hhead' (by omega) hdecl'
  have hlast : len - 1 = p.length + 5 := by
    have hplen := congrArg List.length hf
    rw [hlen, rxFrame_length] at hplen
    omega
  have ht : t = tailOf cfg v := by
    rw [← List.getElem?_take_of_lt (j := len) (by omega), hf, hlast, rxFrame_getElem?_tail, ← tailOf_eq_rxTail] at htail
    exact Option.some.inj htail
  exact ⟨a, c, p, k, hp, ht ▸ hf⟩

theorem eventSound_classify {len : Nat} (hhead : buf.head? = some (headOf v)) (hj : judge cfg v buf = .complete len) :
    EventSound cfg v buf (classify cfg v (buf.take len)) := by
  obtain ⟨-, -, -, hm, hle, -⟩ := judge_complete hj
  obtain ⟨a, c, p, k, hp, hf⟩ := exists_take_eq_rxFrame hhead hj
  have hrun : buf.take len <:+: buf := (List.take_prefix len buf).isInfix
  have hlen : (buf.take len).length ≤ cfg.maxFrame := (List.length_take_of_le hle).trans_le hm
  rw [hf] at hrun hlen ⊢
  by_cases hk : k = rxCk cfg v a c p
  · subst hk
    rw [classify_rxFrame_of_eq]
    exact ⟨hrun, a, c, p, hp, hlen, rfl⟩
  · rw [classify_rxFrame_of_ne hk]
    exact ⟨hrun, a, c, p, k, hp, hlen, hk, rfl⟩

/-- A candidate that a pass rejects is rejected for the cause its reason names. -/
theorem rejectedFor_of_judge {r : FrameErrReason} (hhead : buf.head? = some (headOf v)) (hj : judge cfg v buf = .reject r) :
    RejectedFor cfg v buf r := by
  rcases judge_cases cfg v buf with
    ⟨hj', _⟩ | ⟨hj', hh, he, h6⟩ | ⟨hj', hh, he, _, hm⟩ | ⟨hj', hh, he, h6, hm, hl, ht⟩ | ⟨hj', hh, he, hm, hc⟩ | ⟨hj', _⟩
  all_goals cases hj.symm.trans hj'
  · exact ⟨hhead, hh, by rw [if_pos he]; exact h6⟩
  · exact ⟨hhead, hh, by rw [if_pos he]; exact hm⟩
  · exact ⟨hhead, hh, by rw [if_pos he]; exact ⟨h6, hm, hl, tailOf_eq_rxTail cfg v ▸ ht⟩⟩
  · exact ⟨hhead, hh, by
      rw [if_neg (Bool.eq_false_iff.1 he)]
      exact ⟨rfl, hm, mt completeCandidate_iff.1 hc⟩⟩

/-- A Plate candidate declares at least 6 bytes, so it is never rejected for a shorter length (R144). -/
theorem judge_plate_ne_badLength : judge cfg .plate buf ≠ .reject .badLength := by
  intro hj
  have h6 : 6 ≤ declLen .plate buf := Nat.le_add_left ..
  rcases judge_cases cfg .plate buf with ⟨hj', _⟩ | ⟨-, _, _, h⟩ | ⟨hj', _⟩ | ⟨hj', _⟩ | ⟨hj', _⟩ | ⟨hj', _⟩
  case inr.inl => omega
  all_goals nomatch hj.symm.trans hj'

theorem eventSound_frameErr {r : FrameErrReason} (hhead : buf.head? = some (headOf v)) (hj : judge cfg v buf = .reject r) :
    EventSound cfg v buf (.frameErr r) := by
  refine ⟨⟨buf, List.infix_rfl, rejectedFor_of_judge hhead hj⟩, ?_⟩
  rintro rfl rfl
  exact judge_plate_ne_badLength hj

/-- Where a pass decides something, the hunted buffer starts with the head. -/
theorem hunt_head? (h : 0 < (hunt v buf).length) : (hunt v buf).head? = some (headOf v) := by
  obtain hnil | hhead := atHead_hunt v buf
  · rw [hnil] at h
    nomatch h
  · exact hhead

theorem hunt_suffix (v : Variant) (buf : List Byte) : hunt v buf <:+ buf := List.dropWhile_suffix _

end

/-- What `Drain()` tells of a buffer: every event is sound, what is left is the buffer's end, and events and bytes left are together
no more than the bytes there were. -/
structure DrainSound (cfg : Config) (v : Variant) (buf : List Byte) (o : List Event × List Byte) : Prop where
  /-- Every event keeps its promise. -/
  sound : ∀ e ∈ o.1, EventSound cfg v buf e
  /-- The bytes left are the last ones. -/
  suffix : o.2 <:+ buf
  /-- Every event removes at least one byte. -/
  bound : o.1.length + o.2.length ≤ buf.length

section
variable {cfg : Config} {v : Variant}

/-- A pass that makes the event `e` and goes on after `n` bytes of the hunted buffer. -/
theorem DrainSound.cons {buf : List Byte} {n : Nat} {e : Event} {o : List Event × List Byte} (hn : 0 < n)
    (hlen : n ≤ (hunt v buf).length) (he : EventSound cfg v (hunt v buf) e) (h : DrainSound cfg v ((hunt v buf).drop n) o) :
    DrainSound cfg v buf (e :: o.1, o.2) := by
  have hhunt := hunt_suffix v buf
  have hdrop : (hunt v buf).drop n <:+ buf := (List.drop_suffix n _).trans hhunt
  refine ⟨List.forall_mem_cons.2 ⟨he.mono hhunt.isInfix, fun e' h' => (h.sound e' h').mono hdrop.isInfix⟩,
    h.suffix.trans hdrop, ?_⟩
  have hbound := h.bound
  have hle := hunt_length_le v buf
  rw [List.length_drop] at hbound
  change o.1.length + 1 + o.2.length ≤ buf.length
  omega

theorem drain_sound (cfg : Config) (v : Variant) (buf : List Byte) : DrainSound cfg v buf (drain cfg v buf) := by
  induction buf using drain_induct cfg v with
  | wait buf hj =>
    rw [drain_eq, hj]
    exact ⟨nofun, hunt_suffix v buf, by simpa using hunt_length_le v buf⟩
  | reject buf r hj ih =>
    have hpos := judge_reject_length hj
    rw [drain_eq, hj]
    exact ih.cons Nat.one_pos hpos (eventSound_frameErr (hunt_head? hpos) hj)
  | complete buf len hj ih =>
    obtain ⟨-, -, h6, -, hle, -⟩ := judge_complete hj
    rw [drain_eq, hj]
    exact ih.cons (by omega) hle (eventSound_classify (hunt_head? (by omega)) hj)

/-- Feeding is as sound as draining, in the bytes held and fed. -/
theorem feedBytes_sound (cfg : Config) (v : Variant) (chunk buf : List Byte) :
    DrainSound cfg v (buf ++ chunk) (feedBytes cfg v chunk buf) := by
  induction chunk generalizing buf with
  | nil => exact ⟨nofun, by rw [List.append_nil]; exact List.suffix_rfl, by simp⟩
  | cons b chunk ih =>
    have hdrain := drain_sound cfg v (buf ++ [b])
    have hfeed := ih (drain cfg v (buf ++ [b])).2
    have hmid : (drain cfg v (buf ++ [b])).2 ++ chunk <:+ buf ++ b :: chunk := by
      rw [List.append_cons buf b chunk]
      exact (List.suffix_append_inj_of_length_eq rfl).2 ⟨hdrain.suffix, rfl⟩
    have hpre : buf ++ [b] <:+: buf ++ b :: chunk := by
      rw [List.append_cons buf b chunk]
      exact (List.prefix_append ..).isInfix
    rw [feedBytes_cons]
    refine ⟨fun e he => ?_, hfeed.suffix.trans hmid, ?_⟩
    · obtain he | he := List.mem_append.1 he
      · exact (hdrain.sound e he).mono hpre
      · exact (hfeed.sound e he).mono hmid.isInfix
    · have hb := hdrain.bound
      have hb' := hfeed.bound
      simp only [List.length_append, List.length_cons, List.length_nil] at hb hb' ⊢
      omega

end

/-- Settles O44: every pass of the drain loop makes a sound event and takes at least one byte. -/
theorem feedEventsAreSound : Obligations.FeedEventsAreSound := by
  unfold Obligations.FeedEventsAreSound
  intro chunk s
  have hsound := feedBytes_sound s.cfg s.frmVariant chunk s.frmBuf
  refine ⟨_, _, feedAnswers_of_feedBytes rfl, fun f hf => hsound.sound _ hf, fun f hf => hsound.sound _ hf,
    fun r hr => hsound.sound _ hr, ?_⟩
  have hbound := hsound.bound
  rw [List.length_append] at hbound
  omega

/-- Settles O50: a FRAME is a right frame of its variant, and a decoder asks nothing more of it than the layout, or the address and
the measurement shape. -/
theorem framerFramesDecode : Obligations.FramerFramesDecode := by
  unfold Obligations.FramerFramesDecode
  intro chunk s
  refine ⟨_, _, exec_frmFeed chunk s, fun f hf => ?_⟩
  obtain ⟨-, a, c, p, hp, -, rfl⟩ := (feedBytes_sound s.cfg s.frmVariant chunk s.frmBuf).sound _ hf
  rw [rxFrame_length, Nat.add_sub_cancel]
  refine ⟨fun hv pcc hfit => ?instr, fun hv haddr hshape => ?plate⟩
  case instr =>
    rw [hv] at hp ⊢
    exact ⟨_, exec_decI_of_valid hp hfit⟩
  case plate =>
    rw [hv] at hp haddr hshape ⊢
    obtain ⟨val, hval⟩ := exists_exec_decP_of_valid haddr hp fun hc => Nat.add_right_cancel (hshape hc)
    exact ⟨_, hval⟩

end Sys2Proof.Machine
end
